-- ==== Sys2Proof/Word.lean ====
section
/-! DEFINITION. The word types of the CHIP-8 CORE (spec/00_scope.md R9, spec/10_state.md). There are no
signed quantities anywhere in this machine (R9). -/

namespace Sys2Proof

/-- One byte: a V register, a memory byte, a timer. -/
abbrev Byte := BitVec 8

/-- 16 bits: an opcode, `I`, `PC`, `KEYS`. -/
abbrev Word := BitVec 16

/-- A 12-bit absolute byte address field `nnn` (R63). -/
abbrev Addr12 := BitVec 12

/-- A 4-bit immediate, the row count `n` of `DRW` (R63). -/
abbrev Nibble := BitVec 4

/-- A register number: a 4-bit opcode field, "inherently bounded (0–15)" (R10). -/
abbrev Reg := Fin 16

/-- VF, the flag register (R11). -/
abbrev Reg.vf : Reg := 15

/-- One row of the framebuffer: 64 one-bit pixels, the leftmost the most significant bit (R24, R161; log 13). -/
abbrev PixelRow := BitVec 64

end Sys2Proof
end

