-- ==== Sys2Proof/Config.lean ====
section
/-! DEFINITION. What is fixed for the machine: the rows of spec/00_scope.md R4 marked *fixed* as constants, the rows
marked *parameter* as the fields of `Parameters`, and the free value of the random source. The defaults of the
*parameter* rows stand in Sys2Proof/Machine/Params.lean. -/

namespace Sys2Proof.Config

/-- `MEM_SIZE`: "exactly 4096 bytes, addressable 0..4095" (R4, R18); also the modulus of every memory address (R41). -/
def memSize : Nat := 4096

/-- `PROG_BASE`: where a program is loaded and where execution starts (R4, R30, R241). -/
def progBase : Nat := 0x200

/-- `PROG_MAX`: the longest program image, 0x200..0xFFF (R4, R243). -/
def progMax : Nat := 3584

/-- `FONT_BASE`: the address of the glyph of digit 0 (R4, R20). -/
def fontBase : Nat := 0x000

/-- `FONT_LEN`: 16 glyphs of 5 bytes (R4, R20). -/
def fontLen : Nat := 80

/-- The bytes of one glyph (R20). -/
def glyphLen : Nat := 5

/-- The largest value of `PC`: 0xFFF (R12, R13). -/
def pcMax : Nat := 0xFFF

/-- `FB_W`: 64 columns (R4, R24). -/
def fbWidth : Nat := 64

/-- `FB_H`: 32 rows (R4, R24). -/
def fbHeight : Nat := 32

/-- The two values of the parameter `SHIFT_SRC` (R4, R129, D10): the register a shift takes its source from. -/
inductive ShiftSrc where
  | vy
  | vx
  deriving DecidableEq, Repr

/-- What `PC_WRAP_MOD` ranges over: a modulus that leaves 0..0xFFF or less, as R12 asks of the stored `PC`. The default
0xFFF and the alternative 0x1000 of D1 are two of them. -/
abbrev WrapModulus := { m : Nat // 0 < m ∧ m ≤ 0x1000 }

/-- The rows of R4 marked *parameter*, which "a model takes ... as arguments with the stated default". A machine is built
with them (`State.resetAt`) and carries them unchanged (DESIGN CHOICE, log 18). The remaining such row, the time domain,
is the type `Nat` of the operations' arguments `now` and `t0` (log 11). -/
structure Parameters where
  /-- `PC_WRAP_MOD` (R13, D1). -/
  pcWrapMod : WrapModulus
  /-- `STACK_LEVELS`: how many return addresses the call stack holds (R16, D4). -/
  stackLevels : Nat
  /-- `TICK_US`: the microseconds of a timer window (R220, D18). -/
  tickUs : Nat
  /-- `SHIFT_SRC` (R129, R131, D10). -/
  shiftSrc : ShiftSrc
  /-- `MEM_INIT`: every byte outside the font table after reset (R30, D17). -/
  memInit : Byte
  /-- `FONT`: the bytes of the font table (R21, D16). -/
  font : Vector Byte 80
  deriving DecidableEq, Repr

/-- The random source: "collaborator-provided uniform byte generator", outside the CORE, any byte, fresh at every
`Step` (R132, D25). A FREE VALUE: the byte of the n-th draw, with no body, so no proof can depend on what it is
(DESIGN CHOICE, log 1). -/
opaque randomByte : Nat → Byte

end Sys2Proof.Config
end

