-- ==== Sys2Proof/Syntax.lean ====
section
/-! DEFINITION. The 34 instructions of the opcode map (spec/30_encoding.md R66), the outcome of decoding (R65), and
the operand fields and mnemonics of the assembler syntax (R62, R63, R70). Register numbers are `Fin 16` and
immediates bit vectors of their field's width, so every `Instr` is one the encoding has (Sys2Proof/WellFormed.lean
checks the operands of an assembly line, which are plain numbers). -/

namespace Sys2Proof

/-- One constructor per row of the opcode map, in the order of spec/opcode_table.json. -/
inductive Instr where
  /-- 00E0 clear the screen (R160). -/
  | cls
  /-- 00EE return from subroutine (R103). -/
  | ret
  /-- 1nnn jump (R100). -/
  | jp (nnn : Addr12)
  /-- 2nnn call subroutine (R102). -/
  | call (nnn : Addr12)
  /-- 3xnn skip if `Vx = nn` (R104). -/
  | se (x : Reg) (nn : Byte)
  /-- 4xnn skip if `Vx ≠ nn` (R105). -/
  | sne (x : Reg) (nn : Byte)
  /-- 5xy0 skip if `Vx = Vy` (R106). -/
  | ser (x y : Reg)
  /-- 9xy0 skip if `Vx ≠ Vy` (R107). -/
  | sner (x y : Reg)
  /-- 6xnn load immediate (R120). -/
  | ld (x : Reg) (nn : Byte)
  /-- 7xnn add immediate (R121). -/
  | addi (x : Reg) (nn : Byte)
  /-- 8xy0 copy register (R123). -/
  | mov (x y : Reg)
  /-- 8xy1 bitwise OR (R124). -/
  | or (x y : Reg)
  /-- 8xy2 bitwise AND (R125). -/
  | and (x y : Reg)
  /-- 8xy3 bitwise exclusive OR (R126). -/
  | xor (x y : Reg)
  /-- 8xy4 add with carry out (R127). -/
  | add (x y : Reg)
  /-- 8xy5 subtract, inverted borrow (R128). -/
  | sub (x y : Reg)
  /-- 8xy6 shift right by one (R129). -/
  | shr (x y : Reg)
  /-- 8xy7 reverse subtract, inverted borrow (R130). -/
  | subn (x y : Reg)
  /-- 8xyE shift left by one (R131). -/
  | shl (x y : Reg)
  /-- Annn load the index register (R140). -/
  | ldi (nnn : Addr12)
  /-- Bnnn jump with offset V0 (R101). -/
  | jp0 (nnn : Addr12)
  /-- Cxnn masked random byte (R132). -/
  | rnd (x : Reg) (nn : Byte)
  /-- Dxyn draw sprite (R162). -/
  | drw (x y : Reg) (n : Nibble)
  /-- Ex9E skip if the key is pressed (R180). -/
  | skp (x : Reg)
  /-- ExA1 skip if the key is not pressed (R181). -/
  | sknp (x : Reg)
  /-- Fx07 read the delay timer (R183). -/
  | lddt (x : Reg)
  /-- Fx0A wait for a key (R182). -/
  | wkey (x : Reg)
  /-- Fx15 write the delay timer (R184). -/
  | stdt (x : Reg)
  /-- Fx18 write the sound timer (R185). -/
  | stst (x : Reg)
  /-- Fx1E add a register to the index register (R141). -/
  | addix (x : Reg)
  /-- Fx29 point the index register at a glyph (R142). -/
  | font (x : Reg)
  /-- Fx33 store decimal digits (R143). -/
  | bcd (x : Reg)
  /-- Fx55 store V0..Vx (R144). -/
  | stm (x : Reg)
  /-- Fx65 load V0..Vx (R145). -/
  | ldm (x : Reg)
  deriving DecidableEq, Repr

/-- "Every 16-bit value maps to exactly one decoded operation or to an explicit 'unrecognized opcode' outcome"
(R65). -/
inductive Decoded where
  | instr (i : Instr)
  | unrecognized (op : Word)
  deriving DecidableEq, Repr

/-- The operand fields of an opcode (R62, R63). -/
inductive Field where
  | x
  | y
  | n
  | nn
  | nnn
  deriving DecidableEq, Repr

/-- The width of a field in bits (R62). -/
def Field.width : Field → Nat
  | .x => 4
  | .y => 4
  | .n => 4
  | .nn => 8
  | .nnn => 12

/-- The 34 mnemonics of R66, one per encoding row (R70). -/
inductive Mnemonic where
  | cls | ret | jp | call | se | sne | ser | sner | ld | addi | mov | or | and | xor | add | sub | shr | subn | shl
  | ldi | jp0 | rnd | drw | skp | sknp | lddt | wkey | stdt | stst | addix | font | bcd | stm | ldm
  deriving DecidableEq, Repr

/-- The spelling of a mnemonic (R66). -/
def Mnemonic.spelling : Mnemonic → String
  | .cls => "CLS" | .ret => "RET" | .jp => "JP" | .call => "CALL" | .se => "SE" | .sne => "SNE" | .ser => "SER"
  | .sner => "SNER" | .ld => "LD" | .addi => "ADDI" | .mov => "MOV" | .or => "OR" | .and => "AND" | .xor => "XOR"
  | .add => "ADD" | .sub => "SUB" | .shr => "SHR" | .subn => "SUBN" | .shl => "SHL" | .ldi => "LDI" | .jp0 => "JP0"
  | .rnd => "RND" | .drw => "DRW" | .skp => "SKP" | .sknp => "SKNP" | .lddt => "LDDT" | .wkey => "WKEY"
  | .stdt => "STDT" | .stst => "STST" | .addix => "ADDIX" | .font => "FONT" | .bcd => "BCD" | .stm => "STM"
  | .ldm => "LDM"

/-- The operands a mnemonic takes, in the order of its syntax (R66). -/
def Mnemonic.fields : Mnemonic → List Field
  | .cls | .ret => []
  | .jp | .call | .ldi | .jp0 => [.nnn]
  | .se | .sne | .ld | .addi | .rnd => [.x, .nn]
  | .ser | .sner | .mov | .or | .and | .xor | .add | .sub | .shr | .subn | .shl => [.x, .y]
  | .drw => [.x, .y, .n]
  | .skp | .sknp | .lddt | .wkey | .stdt | .stst | .addix | .font | .bcd | .stm | .ldm => [.x]

/-- One instruction as an assembly line gives it: a mnemonic and its operands as plain numbers, a register `Vk` as the
number `k` and a label as the address it stands for (R70). -/
structure SourceInstr where
  mnemonic : Mnemonic
  operands : List Nat
  deriving DecidableEq, Repr

/-- The assembly line of an instruction: what a disassembler prints for it (R70). -/
def Instr.source : Instr → SourceInstr
  | .cls => ⟨.cls, []⟩
  | .ret => ⟨.ret, []⟩
  | .jp nnn => ⟨.jp, [nnn.toNat]⟩
  | .call nnn => ⟨.call, [nnn.toNat]⟩
  | .se x nn => ⟨.se, [x.val, nn.toNat]⟩
  | .sne x nn => ⟨.sne, [x.val, nn.toNat]⟩
  | .ser x y => ⟨.ser, [x.val, y.val]⟩
  | .sner x y => ⟨.sner, [x.val, y.val]⟩
  | .ld x nn => ⟨.ld, [x.val, nn.toNat]⟩
  | .addi x nn => ⟨.addi, [x.val, nn.toNat]⟩
  | .mov x y => ⟨.mov, [x.val, y.val]⟩
  | .or x y => ⟨.or, [x.val, y.val]⟩
  | .and x y => ⟨.and, [x.val, y.val]⟩
  | .xor x y => ⟨.xor, [x.val, y.val]⟩
  | .add x y => ⟨.add, [x.val, y.val]⟩
  | .sub x y => ⟨.sub, [x.val, y.val]⟩
  | .shr x y => ⟨.shr, [x.val, y.val]⟩
  | .subn x y => ⟨.subn, [x.val, y.val]⟩
  | .shl x y => ⟨.shl, [x.val, y.val]⟩
  | .ldi nnn => ⟨.ldi, [nnn.toNat]⟩
  | .jp0 nnn => ⟨.jp0, [nnn.toNat]⟩
  | .rnd x nn => ⟨.rnd, [x.val, nn.toNat]⟩
  | .drw x y n => ⟨.drw, [x.val, y.val, n.toNat]⟩
  | .skp x => ⟨.skp, [x.val]⟩
  | .sknp x => ⟨.sknp, [x.val]⟩
  | .lddt x => ⟨.lddt, [x.val]⟩
  | .wkey x => ⟨.wkey, [x.val]⟩
  | .stdt x => ⟨.stdt, [x.val]⟩
  | .stst x => ⟨.stst, [x.val]⟩
  | .addix x => ⟨.addix, [x.val]⟩
  | .font x => ⟨.font, [x.val]⟩
  | .bcd x => ⟨.bcd, [x.val]⟩
  | .stm x => ⟨.stm, [x.val]⟩
  | .ldm x => ⟨.ldm, [x.val]⟩

/-- The mnemonic of an instruction. -/
def Instr.mnemonic (i : Instr) : Mnemonic := i.source.mnemonic

end Sys2Proof
end

