-- ==== Sys2Proof/WellFormed.lean ====
section
/-! DEFINITION. When an assembly line's operands are ones its encoding can hold: "an immediate ... must fit its field
(`nnn` 0..0xFFF, `nn` 0..0xFF, `n` 0..15)" and a register is V0..VF (spec/30_encoding.md R70, R63). -/

namespace Sys2Proof

/-- A number fits a field of `width` bits (R70). -/
def Field.fits (f : Field) (v : Nat) : Bool := decide (v < 2 ^ f.width)

/-- The operands are as many as the mnemonic takes and each fits its field. -/
def operandsFit : List Field → List Nat → Bool
  | [], [] => true
  | f :: fs, v :: vs => f.fits v && operandsFit fs vs
  | _, _ => false

/-- An assembly line is well formed (R70). -/
def SourceInstr.wellFormed (l : SourceInstr) : Bool := operandsFit l.mnemonic.fields l.operands

/-- An instruction is well formed when its assembly line is. -/
def Instr.wellFormed (i : Instr) : Bool := i.source.wellFormed

end Sys2Proof
end

