-- ==== Sys2Proof/Decode.lean ====
section
/-! DEFINITION. The decoder (spec/30_encoding.md R64, R65), the encoder and the opcode map (R62, R66), and the words
as the hardware stores them: big-endian, the high byte at the lower address (R61, spec/20_memory.md R42). -/

namespace Sys2Proof

/-! ## Field extraction (R62) -/

/-- `op[15:12]`. -/
def opMajor (op : Word) : Nibble := op.extractLsb' 12 4

/-- `x = op[11:8]`. -/
def opX (op : Word) : Reg := (op.extractLsb' 8 4).toFin

/-- `y = op[7:4]`. -/
def opY (op : Word) : Reg := (op.extractLsb' 4 4).toFin

/-- `n = op[3:0]`. -/
def opN (op : Word) : Nibble := op.extractLsb' 0 4

/-- `nn = op[7:0]`. -/
def opNN (op : Word) : Byte := op.extractLsb' 0 8

/-- `nnn = op[11:0]`. -/
def opNNN (op : Word) : Addr12 := op.extractLsb' 0 12

/-! ## Decode (R65) -/

/-- Family 0x0: the whole word selects (R64, D8). -/
def decode0 (op : Word) : Decoded :=
  if op = 0x00E0#16 then .instr .cls
  else if op = 0x00EE#16 then .instr .ret
  else .unrecognized op

/-- Family 0x8: the low nibble selects (R64). -/
def decode8 (op : Word) : Decoded :=
  match opN op with
  | 0x0#4 => .instr (.mov (opX op) (opY op))
  | 0x1#4 => .instr (.or (opX op) (opY op))
  | 0x2#4 => .instr (.and (opX op) (opY op))
  | 0x3#4 => .instr (.xor (opX op) (opY op))
  | 0x4#4 => .instr (.add (opX op) (opY op))
  | 0x5#4 => .instr (.sub (opX op) (opY op))
  | 0x6#4 => .instr (.shr (opX op) (opY op))
  | 0x7#4 => .instr (.subn (opX op) (opY op))
  | 0xE#4 => .instr (.shl (opX op) (opY op))
  | _ => .unrecognized op

/-- Family 0xE: the low byte selects (R64). -/
def decodeE (op : Word) : Decoded :=
  match opNN op with
  | 0x9E#8 => .instr (.skp (opX op))
  | 0xA1#8 => .instr (.sknp (opX op))
  | _ => .unrecognized op

/-- Family 0xF: the low byte selects (R64). -/
def decodeF (op : Word) : Decoded :=
  match opNN op with
  | 0x07#8 => .instr (.lddt (opX op))
  | 0x0A#8 => .instr (.wkey (opX op))
  | 0x15#8 => .instr (.stdt (opX op))
  | 0x18#8 => .instr (.stst (opX op))
  | 0x1E#8 => .instr (.addix (opX op))
  | 0x29#8 => .instr (.font (opX op))
  | 0x33#8 => .instr (.bcd (opX op))
  | 0x55#8 => .instr (.stm (opX op))
  | 0x65#8 => .instr (.ldm (opX op))
  | _ => .unrecognized op

/-- The decode function of R65, total on 16-bit words; it reads no state. The last arm is major 0xF, the only value
the arms above leave. -/
def decodeWord (op : Word) : Decoded :=
  match opMajor op with
  | 0x0#4 => decode0 op
  | 0x1#4 => .instr (.jp (opNNN op))
  | 0x2#4 => .instr (.call (opNNN op))
  | 0x3#4 => .instr (.se (opX op) (opNN op))
  | 0x4#4 => .instr (.sne (opX op) (opNN op))
  | 0x5#4 => if opN op = 0#4 then .instr (.ser (opX op) (opY op)) else .unrecognized op
  | 0x6#4 => .instr (.ld (opX op) (opNN op))
  | 0x7#4 => .instr (.addi (opX op) (opNN op))
  | 0x8#4 => decode8 op
  | 0x9#4 => if opN op = 0#4 then .instr (.sner (opX op) (opY op)) else .unrecognized op
  | 0xA#4 => .instr (.ldi (opNNN op))
  | 0xB#4 => .instr (.jp0 (opNNN op))
  | 0xC#4 => .instr (.rnd (opX op) (opNN op))
  | 0xD#4 => .instr (.drw (opX op) (opY op) (opN op))
  | 0xE#4 => decodeE op
  | _ => decodeF op

/-- Why a list of bytes holds no instruction. -/
inductive DecodeError where
  /-- Fewer than two bytes (every instruction is two bytes, R61). -/
  | truncated
  /-- The first two bytes are a word of the unrecognized space (R68). -/
  | unrecognized (op : Word)
  deriving DecidableEq, Repr

/-- The opcode is the big-endian combination of two bytes (R42, R61). -/
def wordOfBytes (hi lo : Byte) : Word := hi ++ lo

/-- Decoding the head of any list of bytes: the instruction and the bytes after it, or a rejection by name. -/
def decodeBytes : List Byte → Except DecodeError (Instr × List Byte)
  | hi :: lo :: rest =>
    match decodeWord (wordOfBytes hi lo) with
    | .instr i => .ok (i, rest)
    | .unrecognized op => .error (.unrecognized op)
  | _ => .error .truncated

/-- The high byte of a word, stored at the lower address. -/
def highByte (w : Word) : Byte := w.extractLsb' 8 8

/-- The low byte of a word, stored at the higher address. -/
def lowByte (w : Word) : Byte := w.extractLsb' 0 8

/-- A word as memory holds it (R42). -/
def bytesOfWord (w : Word) : List Byte := [highByte w, lowByte w]

/-- The instruction the decoder reads from a table word: `w` numbered as spec/opcode_table.json numbers it, cut to
`nbits` bits, laid out big-endian. -/
def decodeTableWord (nbits w : Nat) : Option Instr :=
  match decodeBytes (bytesOfWord (BitVec.ofNat 16 (w % 2 ^ nbits))) with
  | .ok (i, _) => some i
  | .error _ => none

/-! ## Encode (R62, R66) -/

/-- A register number as a 4-bit field. -/
def regBits (r : Reg) : Nibble := BitVec.ofFin r

/-- Format `NNN`. -/
def formatNNN (major : Nibble) (nnn : Addr12) : Word := major ++ nnn

/-- Format `XNN`. -/
def formatXNN (major : Nibble) (x : Reg) (nn : Byte) : Word := major ++ regBits x ++ nn

/-- Formats `XY` and `XYN`: the last nibble is the fixed minor of `XY` and the field `n` of `XYN`. -/
def formatXYN (major : Nibble) (x y : Reg) (n : Nibble) : Word := major ++ regBits x ++ regBits y ++ n

/-- Format `X`: a fixed low byte. -/
def formatX (major : Nibble) (x : Reg) (minor : Byte) : Word := major ++ regBits x ++ minor

/-- The word of an instruction (R66). -/
def encode : Instr → Word
  | .cls => 0x00E0#16
  | .ret => 0x00EE#16
  | .jp nnn => formatNNN 0x1#4 nnn
  | .call nnn => formatNNN 0x2#4 nnn
  | .se x nn => formatXNN 0x3#4 x nn
  | .sne x nn => formatXNN 0x4#4 x nn
  | .ser x y => formatXYN 0x5#4 x y 0x0#4
  | .sner x y => formatXYN 0x9#4 x y 0x0#4
  | .ld x nn => formatXNN 0x6#4 x nn
  | .addi x nn => formatXNN 0x7#4 x nn
  | .mov x y => formatXYN 0x8#4 x y 0x0#4
  | .or x y => formatXYN 0x8#4 x y 0x1#4
  | .and x y => formatXYN 0x8#4 x y 0x2#4
  | .xor x y => formatXYN 0x8#4 x y 0x3#4
  | .add x y => formatXYN 0x8#4 x y 0x4#4
  | .sub x y => formatXYN 0x8#4 x y 0x5#4
  | .shr x y => formatXYN 0x8#4 x y 0x6#4
  | .subn x y => formatXYN 0x8#4 x y 0x7#4
  | .shl x y => formatXYN 0x8#4 x y 0xE#4
  | .ldi nnn => formatNNN 0xA#4 nnn
  | .jp0 nnn => formatNNN 0xB#4 nnn
  | .rnd x nn => formatXNN 0xC#4 x nn
  | .drw x y n => formatXYN 0xD#4 x y n
  | .skp x => formatX 0xE#4 x 0x9E#8
  | .sknp x => formatX 0xE#4 x 0xA1#8
  | .lddt x => formatX 0xF#4 x 0x07#8
  | .wkey x => formatX 0xF#4 x 0x0A#8
  | .stdt x => formatX 0xF#4 x 0x15#8
  | .stst x => formatX 0xF#4 x 0x18#8
  | .addix x => formatX 0xF#4 x 0x1E#8
  | .font x => formatX 0xF#4 x 0x29#8
  | .bcd x => formatX 0xF#4 x 0x33#8
  | .stm x => formatX 0xF#4 x 0x55#8
  | .ldm x => formatX 0xF#4 x 0x65#8

/-- The bytes of an instruction in memory order (R42). -/
def encodeBytes (i : Instr) : List Byte := bytesOfWord (encode i)

/-! ## The opcode map as data (R66) -/

/-- One row of the opcode map. -/
structure TableRow where
  mnemonic : Mnemonic
  opMatch : Word
  opMask : Word
  deriving DecidableEq, Repr

/-- "A word `op` selects the row with `op & mask = match`" (R66). -/
def TableRow.selects (r : TableRow) (op : Word) : Bool := (op &&& r.opMask) == r.opMatch

/-- The map's row of a mnemonic: its match and mask, copied from R66. -/
def Mnemonic.row : Mnemonic → TableRow
  | .cls => ⟨.cls, 0x00E0#16, 0xFFFF#16⟩
  | .ret => ⟨.ret, 0x00EE#16, 0xFFFF#16⟩
  | .jp => ⟨.jp, 0x1000#16, 0xF000#16⟩
  | .call => ⟨.call, 0x2000#16, 0xF000#16⟩
  | .se => ⟨.se, 0x3000#16, 0xF000#16⟩
  | .sne => ⟨.sne, 0x4000#16, 0xF000#16⟩
  | .ser => ⟨.ser, 0x5000#16, 0xF00F#16⟩
  | .sner => ⟨.sner, 0x9000#16, 0xF00F#16⟩
  | .ld => ⟨.ld, 0x6000#16, 0xF000#16⟩
  | .addi => ⟨.addi, 0x7000#16, 0xF000#16⟩
  | .mov => ⟨.mov, 0x8000#16, 0xF00F#16⟩
  | .or => ⟨.or, 0x8001#16, 0xF00F#16⟩
  | .and => ⟨.and, 0x8002#16, 0xF00F#16⟩
  | .xor => ⟨.xor, 0x8003#16, 0xF00F#16⟩
  | .add => ⟨.add, 0x8004#16, 0xF00F#16⟩
  | .sub => ⟨.sub, 0x8005#16, 0xF00F#16⟩
  | .shr => ⟨.shr, 0x8006#16, 0xF00F#16⟩
  | .subn => ⟨.subn, 0x8007#16, 0xF00F#16⟩
  | .shl => ⟨.shl, 0x800E#16, 0xF00F#16⟩
  | .ldi => ⟨.ldi, 0xA000#16, 0xF000#16⟩
  | .jp0 => ⟨.jp0, 0xB000#16, 0xF000#16⟩
  | .rnd => ⟨.rnd, 0xC000#16, 0xF000#16⟩
  | .drw => ⟨.drw, 0xD000#16, 0xF000#16⟩
  | .skp => ⟨.skp, 0xE09E#16, 0xF0FF#16⟩
  | .sknp => ⟨.sknp, 0xE0A1#16, 0xF0FF#16⟩
  | .lddt => ⟨.lddt, 0xF007#16, 0xF0FF#16⟩
  | .wkey => ⟨.wkey, 0xF00A#16, 0xF0FF#16⟩
  | .stdt => ⟨.stdt, 0xF015#16, 0xF0FF#16⟩
  | .stst => ⟨.stst, 0xF018#16, 0xF0FF#16⟩
  | .addix => ⟨.addix, 0xF01E#16, 0xF0FF#16⟩
  | .font => ⟨.font, 0xF029#16, 0xF0FF#16⟩
  | .bcd => ⟨.bcd, 0xF033#16, 0xF0FF#16⟩
  | .stm => ⟨.stm, 0xF055#16, 0xF0FF#16⟩
  | .ldm => ⟨.ldm, 0xF065#16, 0xF0FF#16⟩

/-- All mnemonics, in the table's order. -/
def Mnemonic.all : List Mnemonic :=
  [.cls, .ret, .jp, .call, .se, .sne, .ser, .sner, .ld, .addi, .mov, .or, .and, .xor, .add, .sub, .shr, .subn, .shl,
    .ldi, .jp0, .rnd, .drw, .skp, .sknp, .lddt, .wkey, .stdt, .stst, .addix, .font, .bcd, .stm, .ldm]

/-- The opcode map of R66. -/
def opcodeTable : List TableRow := Mnemonic.all.map Mnemonic.row

end Sys2Proof
end

