-- ==== Sys2Proof/Machine/Params.lean ====
section
/-! DEFINITION. The defaults of the *parameter* rows of spec/00_scope.md R4, what the parameters make of memory at
reset, and the reset values the spec decides (spec/10_state.md R30, D17). They stand here and not in Config.lean so that
each value can be mended on its own (UNVERIFIED, log 11). -/

namespace Sys2Proof.Config

/-- `PC_WRAP_MOD` (R4, R13): 0xFFF, deliberately not 0x1000 (C1, D1). -/
def pcWrapMod : WrapModulus := ⟨0xFFF, by decide⟩

/-- `STACK_LEVELS` (R4, R16): 16 return addresses (D4). -/
def stackLevels : Nat := 16

/-- `TICK_US` (R4, R220): 16667 microseconds (D18). -/
def tickUs : Nat := 16667

/-- `SHIFT_SRC` (R4, R129, R131): default `VY` (D10). -/
def shiftSrc : ShiftSrc := .vy

/-- `MEM_INIT` (R4, R30): every byte outside the font table after reset (D17). -/
def memInit : Byte := 0x00#8

/-- `FONT` (R4, R21): the glyphs of the digits 0 to F, five bytes each. The spec takes the bytes from general
knowledge (G1): PRESUMED, log 5. -/
def fontBytes : Vector Byte 80 :=
  #v[0xF0#8, 0x90#8, 0x90#8, 0x90#8, 0xF0#8, 0x20#8, 0x60#8, 0x20#8, 0x20#8, 0x70#8,
    0xF0#8, 0x10#8, 0xF0#8, 0x80#8, 0xF0#8, 0xF0#8, 0x10#8, 0xF0#8, 0x10#8, 0xF0#8,
    0x90#8, 0x90#8, 0xF0#8, 0x10#8, 0x10#8, 0xF0#8, 0x80#8, 0xF0#8, 0x10#8, 0xF0#8,
    0xF0#8, 0x80#8, 0xF0#8, 0x90#8, 0xF0#8, 0xF0#8, 0x10#8, 0x20#8, 0x40#8, 0x40#8,
    0xF0#8, 0x90#8, 0xF0#8, 0x90#8, 0xF0#8, 0xF0#8, 0x90#8, 0xF0#8, 0x10#8, 0xF0#8,
    0xF0#8, 0x90#8, 0xF0#8, 0x90#8, 0x90#8, 0xE0#8, 0x90#8, 0xE0#8, 0x90#8, 0xE0#8,
    0xF0#8, 0x80#8, 0x80#8, 0x80#8, 0xF0#8, 0xE0#8, 0x90#8, 0x90#8, 0x90#8, 0xE0#8,
    0xF0#8, 0x80#8, 0xF0#8, 0x80#8, 0xF0#8, 0xF0#8, 0x80#8, 0xF0#8, 0x80#8, 0x80#8]

/-- The parameters at their stated defaults (R4). -/
def defaults : Parameters where
  pcWrapMod := pcWrapMod
  stackLevels := stackLevels
  tickUs := tickUs
  shiftSrc := shiftSrc
  memInit := memInit
  font := fontBytes

/-- The reset contents of the byte at address `a`: the font at 0x000..0x04F, `MEM_INIT` elsewhere (R30, R45). This is
also what an address the model's memory does not list reads as (DEDUCED, log 6). -/
def resetByte (p : Parameters) (a : Nat) : Byte :=
  if fontBase ≤ a ∧ a < fontBase + fontLen then p.font[a - fontBase]?.getD p.memInit else p.memInit

/-- V0..VF after reset (R30). -/
def resetV : Byte := 0x00#8

/-- `I` after reset (R30). -/
def resetI : Word := 0x0000#16

/-- `PC` after reset: `PROG_BASE` (R30, R241). -/
def resetPc : Word := BitVec.ofNat 16 progBase

/-- The bytes of the call stack after reset (R30, unobservable). -/
def resetStk : Byte := 0x00#8

/-- `SP` after reset: the empty stack (R30). -/
def resetSp : Nat := 0

/-- `DT` and `ST` after reset (R30). -/
def resetTimer : Byte := 0x00#8

/-- A row of `FB` after reset: all 0 (R24, R30). -/
def resetRow : PixelRow := 0#64

/-- `DIRTY` after reset (R30). -/
def resetDirty : Bool := false

/-- `KEYS` after reset: no key pressed (R30). -/
def resetKeys : Word := 0x0000#16

end Sys2Proof.Config
end

