-- ==== Sys2Proof/Machine/State.lean ====
section
/-! DEFINITION. The state of the CORE (spec/10_state.md), the operations its agents perform (spec/00_scope.md R7), the
ways a step of the model can stop, and the state right after reset (R30, R240). -/

namespace Sys2Proof.Machine

/-- The fault latch (R27): code 3 never occurs, so it has no constructor. -/
inductive FaultLatch where
  /-- 0: running. -/
  | none
  /-- 1: `RET` with fewer than two bytes on the stack (R103). -/
  | stackUnderflow
  /-- 2: `CALL` with the stack full (R102). -/
  | stackOverflow
  deriving DecidableEq, Repr

/-- The six atomic operations of R7. `Step`'s argument `rnd` is a free value (DESIGN CHOICE, log 1). -/
inductive Operation where
  /-- `Reset(t0)`, by the host (R240). -/
  | reset (t0 : Nat)
  /-- `Load(addr, b)`, by the host (R243). -/
  | load (addr : Nat) (b : Byte)
  /-- `Step`, by the CPU (R60). -/
  | step
  /-- `TimerUpdate(now)`, by the timer engine (R220). -/
  | timerUpdate (now : Nat)
  /-- `SetKeys(k)`, by the host (R226). -/
  | setKeys (k : Word)
  /-- `AckDirty()`, by the host (R228). -/
  | ackDirty
  deriving DecidableEq, Repr

/-- Memory as (address, byte) cells in canonical form: addresses strictly rising and below 4096, no cell equal to the
reset contents of its address (`Memory.wf`, Machine/Ops.lean). -/
abbrev Memory := List Host.Cell

/-- The framebuffer: 32 rows, top to bottom (R24). -/
abbrev Framebuffer := Vector PixelRow 32

/-- The whole state of the CORE (spec/10_state.md), and the model's own three fields `draws`, `agenda` and `par`. -/
structure State where
  /-- V0..VF (R10). -/
  v : Vector Byte 16
  /-- The index register `I` (R15). -/
  i : Word
  /-- The program counter `PC` (R12). -/
  pc : Word
  /-- The bytes of the call stack: `2 * STACK_LEVELS` of them, `STK[0..31]` by default (R16). -/
  stk : List Byte
  /-- `SP`: how many bytes are on the call stack, 0..`2 * STACK_LEVELS` (R16, R28). -/
  sp : Nat
  /-- `MEM` (R18). -/
  mem : Memory
  /-- The delay timer `DT` (R22). -/
  dt : Byte
  /-- The sound timer `ST` (R22). -/
  st : Byte
  /-- `DT_LAST`, microseconds (R23). -/
  dtLast : Nat
  /-- `ST_LAST`, microseconds (R23). -/
  stLast : Nat
  /-- The framebuffer `FB` (R24). -/
  fb : Framebuffer
  /-- `DIRTY`: the framebuffer changed since it was last presented (R25). -/
  dirty : Bool
  /-- `KEYS`: bit `k` is key `k` (R26). -/
  keys : Word
  /-- `FAULT` (R27). -/
  fault : FaultLatch
  /-- The model's own: how many random bytes have been drawn (R132; DESIGN CHOICE, log 1). -/
  draws : Nat
  /-- The model's own: the operations the host has decided on and that come next, oldest first (R6; DESIGN CHOICE, log 2). -/
  agenda : List Operation
  /-- The model's own: the parameters the machine is built with, which no step changes (R4; DESIGN CHOICE, log 18). -/
  par : Config.Parameters
  deriving DecidableEq, Repr

/-- Why a step of the model stops. No instruction faults in this sense: a stack fault is a NEXT state with `FAULT`
latched (R202). -/
inductive Fault where
  /-- `Load` to an address outside 0x200..0xFFF: "the CORE's port simply has no address above 0xFFF or below 0x200 to
  offer" (R243). Raised by the operation `load` of Machine/Agents.lean. SAFE: the model stops (DESIGN CHOICE, log 12). -/
  | loadAddress (addr : Nat)
  deriving DecidableEq, Repr

/-- Why the model gives no meaning. -/
inductive Refusal where
  /-- An instruction without a meaning yet, rejected by name in exec's arm. SAFE. No arm of this model answers it. -/
  | notModelled (mnemonic : String)
  /-- A program image of more than 3584 bytes: "the loader's error and the machine is not started" (R243). Raised by
  `boot` of Machine/Agents.lean. SAFE: the model stops (DESIGN CHOICE, log 12). -/
  | imageTooLong (bytes : Nat)
  deriving DecidableEq, Repr

/-- The outcome of an instruction or an operation. -/
abbrev Result := Host.Outcome State Fault Refusal

/-- The state after `Reset(t0)` (R30, R240) of a machine with the given parameters, by default those R4 states. -/
def State.resetAt (t0 : Nat) (par : Config.Parameters := Config.defaults) : State where
  v := Vector.replicate 16 Config.resetV
  i := Config.resetI
  pc := Config.resetPc
  stk := List.replicate (2 * par.stackLevels) Config.resetStk
  sp := Config.resetSp
  mem := []
  dt := Config.resetTimer
  st := Config.resetTimer
  dtLast := t0
  stLast := t0
  fb := Vector.replicate 32 Config.resetRow
  dirty := Config.resetDirty
  keys := Config.resetKeys
  fault := .none
  draws := 0
  agenda := []
  par := par

/-- The machine right after reset, with the parameters at their defaults (log 11) and `t0` = 0 (DESIGN CHOICE: the host
gives `t0`, log 4). -/
def State.reset : State := State.resetAt 0

end Sys2Proof.Machine
end

