-- ==== Sys2Proof/Machine/Ops.lean ====
section
/-! DEFINITION. The named operations over memory, registers, the program counter, the call stack, the framebuffer and
the fault latch. Every access of every instruction goes through them. -/

namespace Sys2Proof.Machine

/-! ## Memory cells in canonical form -/

/-- The byte a memory lists at an address. -/
def Memory.lookup : Memory → Nat → Option Byte
  | [], _ => none
  | (k, b) :: t, a => if k = a then some b else Memory.lookup t a

/-- Reading one byte: what is listed, else the reset contents of the address (R30; DEDUCED, log 6). -/
def Memory.read (p : Config.Parameters) (m : Memory) (a : Nat) : Byte :=
  (Memory.lookup m a).getD (Config.resetByte p a)

/-- Listing a byte, in address order. -/
def Memory.put : Memory → Nat → Byte → Memory
  | [], a, b => [(a, b)]
  | (k, c) :: t, a, b =>
    if a < k then (a, b) :: (k, c) :: t else if a = k then (a, b) :: t else (k, c) :: Memory.put t a b

/-- Unlisting an address, wherever it is listed. -/
def Memory.erase : Memory → Nat → Memory
  | [], _ => []
  | (k, c) :: t, a => if a = k then Memory.erase t a else (k, c) :: Memory.erase t a

/-- Writing one byte, keeping the canonical form: a byte equal to the reset contents is not listed. -/
def Memory.write (p : Config.Parameters) (m : Memory) (a : Nat) (b : Byte) : Memory :=
  if b = Config.resetByte p a then Memory.erase m a else Memory.put m a b

/-- The canonical form from address `lo` up. -/
def Memory.wfFrom (p : Config.Parameters) : Nat → Memory → Bool
  | _, [] => true
  | lo, (k, b) :: t =>
    decide (lo ≤ k) && decide (k < Config.memSize) && decide (b ≠ Config.resetByte p k) &&
      Memory.wfFrom p (k + 1) t

/-- The canonical form: addresses strictly rising and below 4096, no byte equal to the reset contents. -/
def Memory.wf (p : Config.Parameters) (m : Memory) : Bool := Memory.wfFrom p 0 m

/-! ## The access primitives (R40, R41) -/

/-- Address reduction modulo `MEM_SIZE`, at every access (R41, D2). -/
def reduceAddr (addr : Nat) : Nat := addr % Config.memSize

/-- `MemRead(addr, 1)` (R40). -/
def State.memRead (s : State) (addr : Nat) : Byte := s.mem.read s.par (reduceAddr addr)

/-- `MemWrite(addr, 1, b)` (R40). -/
def State.memWrite (s : State) (addr : Nat) (b : Byte) : State :=
  { s with mem := s.mem.write s.par (reduceAddr addr) b }

/-! ## Registers (R9, R10, R15) -/

/-- `V[x]`. -/
def State.getV (s : State) (x : Reg) : Byte := s.v[x]

/-- `V[x] <- b`. No V register is hard-wired (R10). -/
def State.setV (s : State) (x : Reg) (b : Byte) : State := { s with v := s.v.set x b }

/-- `I <- w`; `I` is not reduced when written (R15). -/
def State.setI (s : State) (w : Word) : State := { s with i := w }

/-! ## The program counter (R12, R13, R14) -/

/-- `pcnorm(t)` with the modulus `PC_WRAP_MOD` as an argument: values up to 0xFFF are kept, larger ones are reduced
(R13). -/
def pcnorm (m : Config.WrapModulus) (t : Nat) : Word := BitVec.ofNat 16 (if t ≤ Config.pcMax then t else t % m.val)

/-- `pc <- pcnorm(t)`: every write of the program counter (R9, R14). -/
def State.jump (s : State) (t : Nat) : State := { s with pc := pcnorm s.par.pcWrapMod t }

/-- The default advance `pc <- pcnorm(PC + 2)` (R14). -/
def State.advance (s : State) : State := s.jump (s.pc.toNat + 2)

/-- A conditional skip: `pcnorm(PC + 4)` if the condition holds, else `pcnorm(PC + 2)` (R14). -/
def State.skipIf (s : State) (c : Bool) : State := if c then s.jump (s.pc.toNat + 4) else s.advance

/-! ## The call stack (R16, R17) -/

/-- `Push16(a)`: high byte, then low byte. Its precondition, `SP <= 30` by default, is the caller's to
check (R17). -/
def State.push16 (s : State) (a : Word) : State :=
  { s with
    stk := (s.stk.set s.sp (highByte a)).set (s.sp + 1) (lowByte a)
    sp := s.sp + 2 }

/-- The address `Pop16()` returns: `STK[SP - 2] ++ STK[SP - 1]`. Its precondition, `SP >= 2`, is the caller's (R17). -/
def State.top16 (s : State) : Word :=
  wordOfBytes (s.stk[s.sp - 2]?.getD Config.resetStk) (s.stk[s.sp - 1]?.getD Config.resetStk)

/-- The state `Pop16()` leaves (R17). -/
def State.dropTop16 (s : State) : State := { s with sp := s.sp - 2 }

/-- The stack has room for one more return address: the precondition of `Push16` (R17, R102). For an even
`SP` in 0..`2 * STACK_LEVELS` its negation is `SP = 2 * STACK_LEVELS` (DESIGN CHOICE, log 8). -/
def State.stackHasRoom (s : State) : Bool := decide (s.sp + 2 ≤ 2 * s.par.stackLevels)

/-- The stack holds a return address: the precondition of `Pop16`, `SP >= 2` (R17, R103). -/
def State.stackHasTop (s : State) : Bool := decide (2 ≤ s.sp)

/-! ## Taking a fault (R202), and the way back -/

/-- `raise <Fault>`: `FAULT <- code`; no other state changes, not `PC`, not `SP`, not `STK`, not any register (R202).
This is the whole of trap entry: there is no handler, no vector, no mode change and no saved state. There is no return
from a fault either: the only exit is `Reset` (R204), an operation of Machine/Agents.lean. -/
def State.raise (s : State) (f : FaultLatch) : State := { s with fault := f }

/-- Halted: `FAULT != 0` (R203). -/
def State.halted (s : State) : Bool := decide (s.fault ≠ .none)

/-- The code of the latch (R27, R200). -/
def FaultLatch.code : FaultLatch → BitVec 2
  | .none => 0#2
  | .stackUnderflow => 1#2
  | .stackOverflow => 2#2

/-! ## The framebuffer (R24, R161) -/

/-- `FB[r][c]`, the host's read port; no pixel outside the grid is lit. Column 0 is the leftmost, the most significant
bit of its row (DESIGN CHOICE, log 13). -/
def Framebuffer.pixel (fb : Framebuffer) (r c : Nat) : Bool := (fb[r]?.getD 0#64).getMsbD c

/-- The row with only column `c` lit. -/
def columnBit (c : Nat) : PixelRow := (1#64 <<< (63 - c))

/-- `FB[r][c] <- b`, for `c` in 0..63. -/
def Framebuffer.setPixel (fb : Framebuffer) (r c : Nat) (b : Bool) : Framebuffer :=
  let row := fb[r]?.getD 0#64
  fb.setIfInBounds r (if b then row ||| columnBit c else row &&& ~~~(columnBit c))

/-- The blank screen (R160). -/
def Framebuffer.blank : Framebuffer := Vector.replicate 32 0#64

/-- `DIRTY <- 1` (R25). -/
def State.markDirty (s : State) : State := { s with dirty := true }

/-! ## Fetch (R42) -/

/-- `Fetch()`: the two bytes at `PC` and `PC + 1`, big-endian. It reads `MEM` itself at every `Step` (R49). -/
def State.fetch (s : State) : Word := s.memRead s.pc.toNat ++ s.memRead (s.pc.toNat + 1)

end Sys2Proof.Machine
end

