-- ==== Sys2Proof/Machine/Agents.lean ====
section
/-! DEFINITION. The operations of the other agents: the host's `Reset`, `Load`, `SetKeys`, `AckDirty` and the boot
sequence, and the timer engine's `TimerUpdate` (spec/00_scope.md R5 to R7, spec/60_exceptions.md R220 to R228,
spec/70_reset_and_hazards.md R240 to R243). None of them looks at `FAULT`: they act on a halted CORE as well (R203). -/

namespace Sys2Proof.Machine

/-- `Reset(t0)` (R240): every piece of the CORE's state at its reset value. The model's own fields, the count of
random draws, the host's agenda and the parameters, are no state of the CORE and stay (DESIGN CHOICE, log 3). -/
def doReset (t0 : Nat) (s : State) : Result :=
  .next { State.resetAt t0 s.par with draws := s.draws, agenda := s.agenda }

/-- The addresses the `Load` port has: 0x200..0xFFF (R243). -/
def loadable (addr : Nat) : Bool := decide (Config.progBase ≤ addr ∧ addr < Config.memSize)

/-- `Load(addr, b)` (R243): `MEM[addr] <- b`; the port has no other address to offer. -/
def doLoad (addr : Nat) (b : Byte) (s : State) : Result :=
  if loadable addr then .next (s.memWrite addr b) else .fault (.loadAddress addr)

/-- The window of a timer has closed: `now >= LAST` and `now - LAST >= TICK_US` (R220). -/
def windowClosed (tick now last : Nat) : Bool := decide (last ≤ now ∧ tick ≤ now - last)

/-- A counter decremented by 1, "floor at 0" (R220). -/
def countDown (c : Byte) : Byte := if 0 < c.toNat then c - 1#8 else c

/-- The effect on one timer, its counter and its timestamp: the timestamp is reset to `now` on every window closing,
whether or not the counter was above zero (R220, C9, D18). -/
def tickTimer (tick now : Nat) (t : Byte × Nat) : Byte × Nat :=
  if windowClosed tick now t.2 then (countDown t.1, now) else t

/-- `TimerUpdate(now)` (R220), with the machine's `TICK_US`. -/
def doTimerUpdate (now : Nat) (s : State) : Result :=
  let d := tickTimer s.par.tickUs now (s.dt, s.dtLast)
  let u := tickTimer s.par.tickUs now (s.st, s.stLast)
  .next { s with dt := d.1, dtLast := d.2, st := u.1, stLast := u.2 }

/-- `SetKeys(k)` (R226): all 16 bits at once. -/
def doSetKeys (k : Word) (s : State) : Result := .next { s with keys := k }

/-- `AckDirty()` (R228): `DIRTY <- 0` and nothing else. -/
def doAckDirty (s : State) : Result := .next { s with dirty := false }

/-- The program bytes at `addr`, `addr + 1`, ..., each by a `Load` (R242). -/
def loadBytes : Nat → List Byte → State → Result
  | _, [], s => .next s
  | addr, b :: bs, s =>
    match doLoad addr b s with
    | .next s' => loadBytes (addr + 1) bs s'
    | .fault f => .fault f
    | .refused r => .refused r

/-- The boot sequence up to the first `Step` (R242), of a machine with the given parameters: `Reset(t0)`, then the image
from 0x200. An image longer than `PROG_MAX` is the loader's error and the machine is not started (R243). -/
def boot (t0 : Nat) (image : List Byte) (par : Config.Parameters := Config.defaults) : Result :=
  if image.length ≤ Config.progMax then loadBytes Config.progBase image (State.resetAt t0 par)
  else .refused (.imageTooLong image.length)

end Sys2Proof.Machine
end

