-- ==== Sys2Proof/Machine/Operands.lean ====
section
/-! DEFINITION. The operand forms: a register named by a field, an immediate field (spec/30_encoding.md R63), the one
addressing mode (spec/42_index_memory.md), the source of a shift (R129), and the low-nibble indices of keys and digits
(R142, R180). Register and immediate operands are the arguments of an instruction as they stand. -/

namespace Sys2Proof.Machine

/-- The effective address `I + i`, before the reduction the access makes (R41, R44). -/
def State.indexed (s : State) (k : Nat) : Nat := s.i.toNat + k

/-- The source of `SHR` and `SHL`, by the machine's `SHIFT_SRC` (R129, R131, D10). -/
def State.shiftSource (s : State) (x y : Reg) : Byte :=
  match s.par.shiftSrc with
  | .vy => s.getV y
  | .vx => s.getV x

/-- `V[x][3:0]`: the low nibble, a digit or a key number (R142, R180, R181, D15). -/
def State.lowNibble (s : State) (x : Reg) : Nat := (s.getV x).toNat % 16

/-- Key `k` is pressed: bit `k` of `KEYS` (R26). -/
def State.keyPressed (s : State) (k : Nat) : Bool := s.keys.getLsbD k

/-- The least pressed key, scanned "in index order 0..16" (R182, C6); none when `KEYS` = 0. -/
def State.lowestKey (s : State) : Option Nat := (List.range 16).find? (fun k => s.keyPressed k)

/-- `zext_16` of an address field (R140). -/
def zextAddr (nnn : Addr12) : Word := nnn.setWidth 16

/-- `zext_16` of a byte (R141). -/
def zextByte (b : Byte) : Word := b.setWidth 16

end Sys2Proof.Machine
end

