-- ==== Sys2Proof/Machine/Flags.lean ====
section
/-! DEFINITION. The values VF takes (spec/10_state.md R11: always 0x00 or 0x01), and the write order of an instruction
with a flag: the result to `V[x]`, then VF last (spec/41_alu.md R122). The collision flag of `DRW` is computed in
Sys2Proof/Machine/Display.lean. -/

namespace Sys2Proof.Machine

/-- A condition as VF holds it: 0x01 or 0x00 (R11). -/
def flagByte (c : Bool) : Byte := if c then 0x01#8 else 0x00#8

/-- Carry out of bit 7: the sum exceeds 255 (R127). -/
def carryOut (a b : Byte) : Bool := decide (255 < a.toNat + b.toNat)

/-- Inverted borrow of `a - b`: `a >= b`, equality counting as no borrow (R128, R130, R133). -/
def noBorrow (a b : Byte) : Bool := decide (b.toNat ≤ a.toNat)

/-- The bit a right shift by one shifts out: bit 0 (R129). -/
def shiftedOutRight (a : Byte) : Bool := a.getLsbD 0

/-- The bit a left shift by one shifts out: bit 7 (R131). -/
def shiftedOutLeft (a : Byte) : Bool := a.getLsbD 7

/-- `V[x] <- b`, then `V[0xF] <- flag`: VF is written last, so with `x` = 0xF the flag is what VF holds (R122, D11). -/
def State.setVFlag (s : State) (x : Reg) (b : Byte) (flag : Bool) : State :=
  (s.setV x b).setV Reg.vf (flagByte flag)

end Sys2Proof.Machine
end

