-- ==== Sys2Proof/Machine/Alu.lean ====
section
/-! DEFINITION. Load, arithmetic, logic, shift, random (spec/41_alu.md R120 to R133). Operands are read first, the
result is written to `V[x]`, VF last (R122); every one ends with the default advance. -/

namespace Sys2Proof.Machine

/-- `LD Vx, nn` (R120). -/
def execLd (x : Reg) (nn : Byte) (s : State) : Result := .next (s.setV x nn).advance

/-- `ADDI Vx, nn` (R121): wraps modulo 256, writes no flag. -/
def execAddi (x : Reg) (nn : Byte) (s : State) : Result := .next (s.setV x (s.getV x + nn)).advance

/-- `MOV Vx, Vy` (R123). -/
def execMov (x y : Reg) (s : State) : Result := .next (s.setV x (s.getV y)).advance

/-- `OR Vx, Vy` (R124): VF unchanged (D13). -/
def execOr (x y : Reg) (s : State) : Result := .next (s.setV x (s.getV x ||| s.getV y)).advance

/-- `AND Vx, Vy` (R125): VF unchanged (D13). -/
def execAnd (x y : Reg) (s : State) : Result := .next (s.setV x (s.getV x &&& s.getV y)).advance

/-- `XOR Vx, Vy` (R126): VF unchanged (D13). -/
def execXor (x y : Reg) (s : State) : Result := .next (s.setV x (s.getV x ^^^ s.getV y)).advance

/-- `ADD Vx, Vy` (R127): VF is the carry. -/
def execAdd (x y : Reg) (s : State) : Result :=
  let a := s.getV x
  let b := s.getV y
  .next (s.setVFlag x (a + b) (carryOut a b)).advance

/-- `SUB Vx, Vy` (R128): VF is 1 when there is no borrow. -/
def execSub (x y : Reg) (s : State) : Result :=
  let a := s.getV x
  let b := s.getV y
  .next (s.setVFlag x (a - b) (noBorrow a b)).advance

/-- `SHR Vx, Vy` (R129): the source is `V[y]` or `V[x]`, by `SHIFT_SRC`; VF is the bit shifted out. -/
def execShr (x y : Reg) (s : State) : Result :=
  let a := s.shiftSource x y
  .next (s.setVFlag x (a >>> 1) (shiftedOutRight a)).advance

/-- `SUBN Vx, Vy` (R130): the operands of `SUB` reversed. -/
def execSubn (x y : Reg) (s : State) : Result :=
  let a := s.getV x
  let b := s.getV y
  .next (s.setVFlag x (b - a) (noBorrow b a)).advance

/-- `SHL Vx, Vy` (R131): the source is `V[y]` or `V[x]`, by `SHIFT_SRC`; VF is the bit shifted out. -/
def execShl (x y : Reg) (s : State) : Result :=
  let a := s.shiftSource x y
  .next (s.setVFlag x (a <<< 1) (shiftedOutLeft a)).advance

/-- `RND` with the `rnd` argument of the `Step` (R132). -/
def rndWith (rnd : Byte) (x : Reg) (nn : Byte) (s : State) : State := (s.setV x (rnd &&& nn)).advance

/-- `RND Vx, nn` (R132): `rnd` is the free value of the next draw, and the draw is counted (DESIGN CHOICE, log 1). -/
def execRnd (x : Reg) (nn : Byte) (s : State) : Result :=
  .next (rndWith (Config.randomByte s.draws) x nn { s with draws := s.draws + 1 })

end Sys2Proof.Machine
end

