-- ==== Sys2Proof/Machine/Display.lean ====
section
/-! DEFINITION. The display instructions (spec/43_display.md R160 to R162). -/

namespace Sys2Proof.Machine

/-- `CLS` (R160): every pixel off, `DIRTY` set, VF not written. -/
def execCls (s : State) : Result := .next { s with fb := Framebuffer.blank }.markDirty.advance

/-- A framebuffer being drawn on, and whether a lit pixel has been turned off so far (R162). -/
structure Canvas where
  fb : Framebuffer
  collision : Bool
  deriving DecidableEq, Repr

/-- One sprite pixel of value 1 at row `r`, column `c`: a lit pixel is turned off and collides, an unlit one is lit
(R162). -/
def Canvas.flip (k : Canvas) (r c : Nat) : Canvas :=
  if k.fb.pixel r c then { fb := k.fb.setPixel r c false, collision := true }
  else { k with fb := k.fb.setPixel r c true }

/-- The first `count` pixels, from the left, of a sprite row: bit `7 - j` of the byte is column offset `j`, and columns
past the right edge are clipped (R161, R162). -/
def Canvas.drawByte (k : Canvas) (r x0 : Nat) (b : Byte) : Nat → Canvas
  | 0 => k
  | j + 1 =>
    let k' := k.drawByte r x0 b j
    if x0 + j < Config.fbWidth && b.getLsbD (7 - j) then k'.flip r (x0 + j) else k'

/-- The first `count` rows of the sprite at `MEM[I ..]`, its origin at column `x0`, row `y0`; rows past the bottom edge
are clipped (R161, R162). -/
def drawRows (s : State) (x0 y0 : Nat) : Nat → Canvas
  | 0 => { fb := s.fb, collision := false }
  | i + 1 =>
    let k := drawRows s x0 y0 i
    if y0 + i < Config.fbHeight then k.drawByte (y0 + i) x0 (s.memRead (s.indexed i)) 8 else k

/-- The column of a sprite's origin: `V[x] mod 64` (R161). -/
def State.originX (s : State) (x : Reg) : Nat := (s.getV x).toNat % Config.fbWidth

/-- The row of a sprite's origin: `V[y] mod 32` (R161). -/
def State.originY (s : State) (y : Reg) : Nat := (s.getV y).toNat % Config.fbHeight

/-- `DRW Vx, Vy, n` (R162): the coordinates are read before VF is written (D12), VF is the collision flag, `DIRTY` is
set always. -/
def execDrw (x y : Reg) (n : Nibble) (s : State) : Result :=
  let k := drawRows s (s.originX x) (s.originY y) n.toNat
  .next ({ s with fb := k.fb }.setV Reg.vf (flagByte k.collision)).markDirty.advance

end Sys2Proof.Machine
end

