-- ==== Sys2Proof/Machine/Flow.lean ====
section
/-! DEFINITION. Control transfer (spec/40_flow.md R100 to R107). None of these writes a V register, memory, the
framebuffer, a timer or `DIRTY`. -/

namespace Sys2Proof.Machine

/-- `RET` (R103): `StackUnderflow` with fewer than two bytes on the stack, else `PC` is the popped address plus 2. -/
def execRet (s : State) : Result :=
  if s.stackHasTop then .next (s.dropTop16.jump (s.top16.toNat + 2))
  else .next (s.raise .stackUnderflow)

/-- `JP nnn` (R100). -/
def execJp (nnn : Addr12) (s : State) : Result := .next (s.jump nnn.toNat)

/-- `CALL nnn` (R102): pushes the address of the `CALL` itself; `StackOverflow` when the stack is full. -/
def execCall (nnn : Addr12) (s : State) : Result :=
  if s.stackHasRoom then .next ((s.push16 s.pc).jump nnn.toNat)
  else .next (s.raise .stackOverflow)

/-- `SE Vx, nn` (R104). -/
def execSe (x : Reg) (nn : Byte) (s : State) : Result := .next (s.skipIf (s.getV x == nn))

/-- `SNE Vx, nn` (R105). -/
def execSne (x : Reg) (nn : Byte) (s : State) : Result := .next (s.skipIf (s.getV x != nn))

/-- `SER Vx, Vy` (R106). -/
def execSer (x y : Reg) (s : State) : Result := .next (s.skipIf (s.getV x == s.getV y))

/-- `SNER Vx, Vy` (R107). -/
def execSner (x y : Reg) (s : State) : Result := .next (s.skipIf (s.getV x != s.getV y))

/-- `JP0 nnn` (R101): the sum is reduced by `pcnorm`, not masked (D1). -/
def execJp0 (nnn : Addr12) (s : State) : Result := .next (s.jump (nnn.toNat + (s.getV 0).toNat))

end Sys2Proof.Machine
end

