-- ==== Sys2Proof/Machine/Index.lean ====
section
/-! DEFINITION. The index register and the memory instructions (spec/42_index_memory.md R140 to R145). `I` is never
modified by an access (D14); no flag is written; every one ends with the default advance. -/

namespace Sys2Proof.Machine

/-- `LDI nnn` (R140). -/
def execLdi (nnn : Addr12) (s : State) : Result := .next (s.setI (zextAddr nnn)).advance

/-- `ADDIX Vx` (R141): wraps modulo 65536, no flag (D13). -/
def execAddix (x : Reg) (s : State) : Result := .next (s.setI (s.i + zextByte (s.getV x))).advance

/-- The address of the glyph of digit `d`: `FONT_BASE + 5 * d` (R20, R142). -/
def glyphAddr (d : Nat) : Word := BitVec.ofNat 16 (Config.fontBase + Config.glyphLen * d)

/-- `FONT Vx` (R142): the low nibble of `V[x]` is the digit (D15). -/
def execFont (x : Reg) (s : State) : Result := .next (s.setI (glyphAddr (s.lowNibble x))).advance

/-- The hundreds, tens and ones of a byte (R143). -/
def decimalDigits (b : Byte) : Byte × Byte × Byte :=
  (BitVec.ofNat 8 (b.toNat / 100), BitVec.ofNat 8 (b.toNat / 10 % 10), BitVec.ofNat 8 (b.toNat % 10))

/-- `BCD Vx` (R143): hundreds at `I`, tens at `I + 1`, ones at `I + 2`. -/
def execBcd (x : Reg) (s : State) : Result :=
  let d := decimalDigits (s.getV x)
  .next (((s.memWrite (s.indexed 0) d.1).memWrite (s.indexed 1) d.2.1).memWrite (s.indexed 2) d.2.2).advance

/-- The loop of `STM` (R144): the state after `count` stores, `V[k]` at `I + k` for each `k < count`. -/
def storeRegs (s : State) : Nat → State
  | 0 => s
  | k + 1 => (storeRegs s k).memWrite (s.indexed k) (s.v[k]?.getD Config.resetV)

/-- `STM Vx` (R144): V0..Vx inclusive. -/
def execStm (x : Reg) (s : State) : Result := .next (storeRegs s (x.val + 1)).advance

/-- The loop of `LDM` (R145): the registers after `count` loads, `V[k]` from `I + k` for each `k < count`. -/
def loadRegs (s : State) : Nat → Vector Byte 16
  | 0 => s.v
  | k + 1 => (loadRegs s k).setIfInBounds k (s.memRead (s.indexed k))

/-- `LDM Vx` (R145): V0..Vx inclusive. -/
def execLdm (x : Reg) (s : State) : Result := .next { s with v := loadRegs s (x.val + 1) }.advance

end Sys2Proof.Machine
end

