-- ==== Sys2Proof/Machine/KeysTimers.lean ====
section
/-! DEFINITION. Keys and timers (spec/44_keys_timers.md R180 to R185). -/

namespace Sys2Proof.Machine

/-- `SKP Vx` (R180): the key number is the low nibble of `V[x]` (D15). -/
def execSkp (x : Reg) (s : State) : Result := .next (s.skipIf (s.keyPressed (s.lowNibble x)))

/-- `SKNP Vx` (R181). -/
def execSknp (x : Reg) (s : State) : Result := .next (s.skipIf (!s.keyPressed (s.lowNibble x)))

/-- `LDDT Vx` (R183). -/
def execLddt (x : Reg) (s : State) : Result := .next (s.setV x s.dt).advance

/-- `WKEY Vx` (R182): with no key pressed a hold, nothing changes and the same instruction is fetched again; else the
lowest pressed key goes to `V[x]`. -/
def execWkey (x : Reg) (s : State) : Result :=
  match s.lowestKey with
  | none => .next s
  | some k => .next (s.setV x (BitVec.ofNat 8 k)).advance

/-- `STDT Vx` (R184): `DT_LAST` is not touched (D18). -/
def execStdt (x : Reg) (s : State) : Result := .next { s with dt := s.getV x }.advance

/-- `STST Vx` (R185): `ST_LAST` is not touched (D18). -/
def execStst (x : Reg) (s : State) : Result := .next { s with st := s.getV x }.advance

end Sys2Proof.Machine
end

