-- ==== Sys2Proof/Machine/Outputs.lean ====
section
/-! DEFINITION. The outputs (spec/00_scope.md R7, spec/30_encoding.md R60): what the host reads between operations and
what a `Step` returns. Outputs are no state (R205, D7), so each is a function of states (DESIGN CHOICE, log 7). -/

namespace Sys2Proof.Machine

/-- `tone_on = (ST != 0)` (R7, R22). -/
def State.toneOn (s : State) : Bool := decide (s.st ≠ 0#8)

/-- The `report` output of the `Step` taken at `s`: the word of an unrecognized opcode, none otherwise and none while
halted (R60, R203, R205). -/
def State.report (s : State) : Option Word :=
  if s.halted then none
  else
    match decodeWord s.fetch with
    | .instr _ => none
    | .unrecognized op => some op

/-- What `Step` returns: `redraw`, `report`, `fault` (R60). -/
structure StepOutputs where
  redraw : Bool
  report : Option Word
  fault : BitVec 2
  deriving DecidableEq, Repr

/-- The outputs of a `Step` from `before` to `after`: `redraw` and `fault` are `DIRTY` and `FAULT` after the state
update, `report` belongs to the word fetched before it (R60, D26). -/
def stepOutputs (before after : State) : StepOutputs where
  redraw := after.dirty
  report := before.report
  fault := after.fault.code

end Sys2Proof.Machine
end

