-- ==== Sys2Proof/Machine/Unrecognized.lean ====
section
/-! DEFINITION. The execution of a word that is no instruction (spec/60_exceptions.md R205). -/

namespace Sys2Proof.Machine

/-- `Unrecognized(op)`: "treat as a no-op that still advances the program counter" (R205). The report is an output of
the `Step`, not state (`report` of Machine/Outputs.lean), so the word itself plays no part here. -/
def execUnrecognized (_op : Word) (s : State) : Result := .next s.advance

end Sys2Proof.Machine
end

