-- ==== Sys2Proof/Machine/Step.lean ====
section
/-! DEFINITION. One step of the model: the CPU's `Step` (spec/30_encoding.md R60), or the next operation of the agenda
(spec/00_scope.md R6; DESIGN CHOICE, log 2). -/

namespace Sys2Proof.Machine

/-- `Step` (R60): nothing while halted (R203), else fetch, decode, execute. -/
def cpuStep (s : State) : Result :=
  if s.halted then .next s
  else
    match decodeWord s.fetch with
    | .instr i => exec i s
    | .unrecognized op => execUnrecognized op s

/-- One operation of R7. -/
def perform (o : Operation) (s : State) : Result :=
  match o with
  | .reset t0 => doReset t0 s
  | .load addr b => doLoad addr b s
  | .step => cpuStep s
  | .timerUpdate now => doTimerUpdate now s
  | .setKeys k => doSetKeys k s
  | .ackDirty => doAckDirty s

/-- One step of the model: the first operation of the agenda, which is then off it; a `Step` of the CPU when the agenda
is empty (DESIGN CHOICE, log 2). -/
def step (s : State) : Host.Outcome State Fault Refusal :=
  match s.agenda with
  | [] => cpuStep s
  | o :: rest => perform o { s with agenda := rest }

/-- A sequence of operations, each applied to the state the one before left (R6). -/
def performAll : List Operation → State → Result
  | [], s => .next s
  | o :: rest, s =>
    match perform o s with
    | .next s' => performAll rest s'
    | .fault f => .fault f
    | .refused r => .refused r

/-- `s` with a table word stored where the next `Step` fetches (big-endian, at `PC` and `PC + 1`), running and with
nothing on the agenda, so that the very next step runs it (DESIGN CHOICE, log 15). -/
def State.withFetchWord (s : State) (nbits w : Nat) : State :=
  let word : Word := BitVec.ofNat 16 (w % 2 ^ nbits)
  { (s.memWrite s.pc.toNat (highByte word)).memWrite (s.pc.toNat + 1) (lowByte word) with
    fault := .none
    agenda := [] }

end Sys2Proof.Machine
end

