-- ==== Sys2Proof/Machine/Assembly.lean ====
section
/-! DEFINITION. Assembly and disassembly at the level of parsed lines (spec/30_encoding.md R70): an instruction or a
`.word`, and the two directives of a listing. A register `Vk` is the number `k` and a label the address it stands
for. -/

namespace Sys2Proof.Machine

/-- A register operand. -/
def regOfNat (k : Nat) : Reg := Fin.ofNat 16 k

/-- The instruction of a mnemonic and as many operands as it takes. -/
def instrOf : Mnemonic → List Nat → Option Instr
  | .cls, [] => some .cls
  | .ret, [] => some .ret
  | .jp, [a] => some (.jp (BitVec.ofNat 12 a))
  | .call, [a] => some (.call (BitVec.ofNat 12 a))
  | .se, [x, v] => some (.se (regOfNat x) (BitVec.ofNat 8 v))
  | .sne, [x, v] => some (.sne (regOfNat x) (BitVec.ofNat 8 v))
  | .ser, [x, y] => some (.ser (regOfNat x) (regOfNat y))
  | .sner, [x, y] => some (.sner (regOfNat x) (regOfNat y))
  | .ld, [x, v] => some (.ld (regOfNat x) (BitVec.ofNat 8 v))
  | .addi, [x, v] => some (.addi (regOfNat x) (BitVec.ofNat 8 v))
  | .mov, [x, y] => some (.mov (regOfNat x) (regOfNat y))
  | .or, [x, y] => some (.or (regOfNat x) (regOfNat y))
  | .and, [x, y] => some (.and (regOfNat x) (regOfNat y))
  | .xor, [x, y] => some (.xor (regOfNat x) (regOfNat y))
  | .add, [x, y] => some (.add (regOfNat x) (regOfNat y))
  | .sub, [x, y] => some (.sub (regOfNat x) (regOfNat y))
  | .shr, [x, y] => some (.shr (regOfNat x) (regOfNat y))
  | .subn, [x, y] => some (.subn (regOfNat x) (regOfNat y))
  | .shl, [x, y] => some (.shl (regOfNat x) (regOfNat y))
  | .ldi, [a] => some (.ldi (BitVec.ofNat 12 a))
  | .jp0, [a] => some (.jp0 (BitVec.ofNat 12 a))
  | .rnd, [x, v] => some (.rnd (regOfNat x) (BitVec.ofNat 8 v))
  | .drw, [x, y, n] => some (.drw (regOfNat x) (regOfNat y) (BitVec.ofNat 4 n))
  | .skp, [x] => some (.skp (regOfNat x))
  | .sknp, [x] => some (.sknp (regOfNat x))
  | .lddt, [x] => some (.lddt (regOfNat x))
  | .wkey, [x] => some (.wkey (regOfNat x))
  | .stdt, [x] => some (.stdt (regOfNat x))
  | .stst, [x] => some (.stst (regOfNat x))
  | .addix, [x] => some (.addix (regOfNat x))
  | .font, [x] => some (.font (regOfNat x))
  | .bcd, [x] => some (.bcd (regOfNat x))
  | .stm, [x] => some (.stm (regOfNat x))
  | .ldm, [x] => some (.ldm (regOfNat x))
  | _, _ => none

/-- Assembling one instruction: an ill-formed line has none. -/
def assembleInstr (l : SourceInstr) : Option Instr :=
  if l.wellFormed then instrOf l.mnemonic l.operands else none

/-- A line of a listing (R70). -/
inductive SourceLine where
  /-- One instruction. -/
  | instr (l : SourceInstr)
  /-- `.word 0xNNNN`: the two bytes of a 16-bit value, big-endian. -/
  | word (w : Nat)
  /-- `.org 0xNNN`: the address of what follows. -/
  | org (addr : Nat)
  deriving DecidableEq, Repr

/-- What a disassembler prints for a word: an unrecognized word as `.word` (R70). -/
def disassemble (op : Word) : SourceLine :=
  match decodeWord op with
  | .instr i => .instr i.source
  | .unrecognized w => .word w.toNat

/-- The word a line places, if it places one. -/
def assembleLine : SourceLine → Option Word
  | .instr l => (assembleInstr l).map encode
  | .word w => if w < 2 ^ 16 then some (BitVec.ofNat 16 w) else none
  | .org _ => none

/-- The (address, byte) pairs of a listing whose next line stands at `addr`, in listing order; none where a line is
ill formed. -/
def assembleListing : Nat → List SourceLine → Option (List (Nat × Byte))
  | _, [] => some []
  | _, .org a :: rest => if a ≤ Config.pcMax then assembleListing a rest else none
  | addr, line :: rest =>
    match assembleLine line, assembleListing (addr + 2) rest with
    | some w, some cells => some ((addr, highByte w) :: (addr + 1, lowByte w) :: cells)
    | _, _ => none

end Sys2Proof.Machine
end

