-- ==== Sys2Proof/Safety.lean ====
section
/-! DEFINITION. What counts as a good state and a safe run, and the terms the statements use: what an instruction leaves
unchanged, and the spec's quantities written again as plain numbers, apart from the model's own operations. -/

namespace Sys2Proof.Machine

/-! ## Good states -/

/-- `PC` is in 0..0xFFF (R12). -/
abbrev State.PcInRange (s : State) : Prop := s.pc.toNat ≤ 0xFFF

/-- The stack has its `2 * STACK_LEVELS` bytes, and `SP` is even and at most that (R16, R28): by default 32. -/
abbrev State.StackLegal (s : State) : Prop :=
  s.stk.length = 2 * s.par.stackLevels ∧ s.sp % 2 = 0 ∧ s.sp ≤ 2 * s.par.stackLevels

/-- Every return address on the stack is in 0..0xFFF (R103): its high byte is below 0x10. -/
abbrev State.ReturnsInRange (s : State) : Prop := ∀ j, j < s.sp → j % 2 = 0 → (s.stk[j]?.getD 0#8).toNat < 0x10

/-- The invariant of the model: the legal ranges of `PC` and of the stack (R12, R16, R103), memory in its canonical
form, and the two timestamps equal (R220). `FAULT` is legal by its type (R27). -/
abbrev State.Inv (s : State) : Prop :=
  s.PcInRange ∧ s.StackLegal ∧ s.ReturnsInRange ∧ s.mem.wf s.par = true ∧ s.dtLast = s.stLast

/-- A run of `k` steps that is safe: every step answers a next state, and `FAULT` is 0 at its end, hence all along
when nothing on the agenda resets the CORE (R203, R246: a halted state is a failure, not a completion). -/
def SafeRun (k : Nat) (s : State) : Prop := ∃ t, Sys2Proof.core.run k s = .next t ∧ t.fault = .none

/-- The CPU executes at this state, now: not halted and no other operation comes first. -/
abbrev State.Ready (s : State) : Prop := s.fault = .none ∧ s.agenda = []

/-! ## What stays unchanged -/

/-- Every byte of memory reads as before. -/
def SameMemory (s t : State) : Prop := ∀ a, t.memRead a = s.memRead a

/-- Every byte of memory outside the addresses `stored` reads as before. -/
def SameMemoryExcept (stored : Nat → Prop) (s t : State) : Prop :=
  ∀ a, a < 4096 → ¬ stored a → t.memRead a = s.memRead a

/-- Every V register outside `written` is as before. -/
def SameRegsExcept (written : Reg → Prop) (s t : State) : Prop := ∀ j : Reg, ¬ written j → t.v[j] = s.v[j]

/-- Every V register is as before. -/
def SameRegs (s t : State) : Prop := ∀ j : Reg, t.v[j] = s.v[j]

/-- The call stack is as before. -/
def SameStack (s t : State) : Prop := t.sp = s.sp ∧ t.stk = s.stk

/-- Both timers and their timestamps are as before. -/
def SameTimers (s t : State) : Prop := t.dt = s.dt ∧ t.st = s.st ∧ t.dtLast = s.dtLast ∧ t.stLast = s.stLast

/-- The screen and its dirty flag are as before. -/
def SameScreen (s t : State) : Prop := t.fb = s.fb ∧ t.dirty = s.dirty

/-- The model's own three fields are as before. -/
def SameModelFields (s t : State) : Prop := t.draws = s.draws ∧ t.agenda = s.agenda ∧ t.par = s.par

/-- Everything but the V registers and the program counter is as before. -/
def SameButRegsAndPc (s t : State) : Prop :=
  t.i = s.i ∧ SameStack s t ∧ SameMemory s t ∧ SameTimers s t ∧ SameScreen s t ∧ t.keys = s.keys ∧
    t.fault = s.fault ∧ SameModelFields s t

/-- Everything but the program counter is as before. -/
def SameButPc (s t : State) : Prop := SameRegs s t ∧ SameButRegsAndPc s t

/-- Everything but `I` and the program counter is as before. -/
def SameButIndexAndPc (s t : State) : Prop :=
  SameRegs s t ∧ SameStack s t ∧ SameMemory s t ∧ SameTimers s t ∧ SameScreen s t ∧ t.keys = s.keys ∧
    t.fault = s.fault ∧ SameModelFields s t

/-- Everything but memory and the program counter is as before. -/
def SameButMemoryAndPc (s t : State) : Prop :=
  SameRegs s t ∧ t.i = s.i ∧ SameStack s t ∧ SameTimers s t ∧ SameScreen s t ∧ t.keys = s.keys ∧
    t.fault = s.fault ∧ SameModelFields s t

/-! ## The spec's quantities as plain numbers -/

/-- The program counter reduction of R13, as a number, with the machine's `PC_WRAP_MOD`. -/
def State.pcAfter (s : State) (t : Nat) : Nat := if t ≤ 4095 then t else t % s.par.pcWrapMod.val

/-- A Boolean as VF holds it. -/
def flagNat (p : Prop) [Decidable p] : Nat := if p then 1 else 0

/-- Pixel `(r, c)` of the screen lies under a 1-bit of the sprite of `n` rows at `MEM[I ..]` whose origin is row `y0`,
column `x0`: the bit `7 - j` of the byte at `I + i`, for `r = y0 + i` and `c = x0 + j` (R161). -/
def SpriteBit (s : State) (x0 y0 n r c : Nat) : Prop :=
  y0 ≤ r ∧ r < y0 + n ∧ x0 ≤ c ∧ c < x0 + 8 ∧
    (s.memRead (s.i.toNat + (r - y0))).getLsbD (7 - (c - x0)) = true

/-- A word of the unrecognized space, by the table of R68. -/
def InUnrecognizedSpace (op : Nat) : Prop :=
  (op < 0x1000 ∧ op ≠ 0x00E0 ∧ op ≠ 0x00EE) ∨
  (op / 0x1000 = 0x5 ∧ op % 0x10 ≠ 0) ∨
  (op / 0x1000 = 0x9 ∧ op % 0x10 ≠ 0) ∨
  (op / 0x1000 = 0x8 ∧ op % 0x10 ∈ [0x8, 0x9, 0xA, 0xB, 0xC, 0xD, 0xF]) ∨
  (op / 0x1000 = 0xE ∧ op % 0x100 ∉ [0x9E, 0xA1]) ∨
  (op / 0x1000 = 0xF ∧ op % 0x100 ∉ [0x07, 0x0A, 0x15, 0x18, 0x1E, 0x29, 0x33, 0x55, 0x65])

/-- An instruction and its opcode as a number: it encodes to that word, and that word decodes to it (R65, R66). -/
def EncodedAs (i : Instr) (op : Nat) : Prop :=
  (encode i).toNat = op ∧ decodeWord (BitVec.ofNat 16 op) = .instr i

/-- The address on top of the stack: the byte at `STK[SP - 2]` high, the byte at `STK[SP - 1]` low (R17). -/
def poppedAddress (s : State) : Nat :=
  256 * (s.stk[s.sp - 2]?.getD 0#8).toNat + (s.stk[s.sp - 1]?.getD 0#8).toNat

/-- `PC` after an instruction, by the table of R14. -/
def pcByTable (s : State) : Instr → Nat
  | .jp nnn => nnn.toNat
  | .call nnn => if s.sp = 2 * s.par.stackLevels then s.pc.toNat else nnn.toNat
  | .jp0 nnn => s.pcAfter (nnn.toNat + (s.v[0]).toNat)
  | .ret => if s.sp < 2 then s.pc.toNat else s.pcAfter (poppedAddress s + 2)
  | .se x nn => s.pcAfter (s.pc.toNat + if s.v[x] = nn then 4 else 2)
  | .sne x nn => s.pcAfter (s.pc.toNat + if s.v[x] ≠ nn then 4 else 2)
  | .ser x y => s.pcAfter (s.pc.toNat + if s.v[x] = s.v[y] then 4 else 2)
  | .sner x y => s.pcAfter (s.pc.toNat + if s.v[x] ≠ s.v[y] then 4 else 2)
  | .skp x => s.pcAfter (s.pc.toNat + if s.keys.getLsbD ((s.v[x]).toNat % 16) then 4 else 2)
  | .sknp x => s.pcAfter (s.pc.toNat + if s.keys.getLsbD ((s.v[x]).toNat % 16) then 2 else 4)
  | .wkey _ => if s.keys = 0 then s.pc.toNat else s.pcAfter (s.pc.toNat + 2)
  | _ => s.pcAfter (s.pc.toNat + 2)

/-- The registers an instruction names as its destination (R11): `x`, or V0..Vx for `LDM`; none for the others. -/
def IsDestination (j : Reg) : Instr → Prop
  | .ld x _ | .addi x _ | .mov x _ | .or x _ | .and x _ | .xor x _ | .add x _ | .sub x _ | .shr x _ | .subn x _
  | .shl x _ | .rnd x _ | .lddt x | .wkey x => j = x
  | .ldm x => j ≤ x
  | _ => False

/-- The six instructions that write VF as a side effect (R11). -/
def IsFlagWriter : Instr → Prop
  | .add _ _ | .sub _ _ | .shr _ _ | .subn _ _ | .shl _ _ | .drw _ _ _ => True
  | _ => False

/-! ## Shapes of a result -/

/-- From `s` to `t`: `V[x]` becomes `val`, `PC` advances by 2, and nothing else changes. -/
def RegEffect (s t : State) (x : Reg) (val : Nat) : Prop :=
  (t.v[x]).toNat = val ∧ SameRegsExcept (fun j => j = x) s t ∧ t.pc.toNat = s.pcAfter (s.pc.toNat + 2) ∧
    SameButRegsAndPc s t

/-- From `s` to `t`: `V[x]` becomes `val` unless `x` is VF, VF becomes `flag` in every case (R122), `PC` advances by 2,
and nothing else changes. -/
def FlagEffect (s t : State) (x : Reg) (val flag : Nat) : Prop :=
  (x ≠ 15 → (t.v[x]).toNat = val) ∧ (t.v[15]).toNat = flag ∧ SameRegsExcept (fun j => j = x ∨ j = 15) s t ∧
    t.pc.toNat = s.pcAfter (s.pc.toNat + 2) ∧ SameButRegsAndPc s t

/-- From `s` to `t`: `PC` advances by 4 where the condition holds, else by 2, and nothing else changes. -/
def SkipEffect (s t : State) (c : Prop) : Prop :=
  (c → t.pc.toNat = s.pcAfter (s.pc.toNat + 4)) ∧ (¬ c → t.pc.toNat = s.pcAfter (s.pc.toNat + 2)) ∧ SameButPc s t

/-- From `s` to `t`: `I` becomes `val`, `PC` advances by 2, and nothing else changes. -/
def IndexEffect (s t : State) (val : Nat) : Prop :=
  t.i.toNat = val ∧ t.pc.toNat = s.pcAfter (s.pc.toNat + 2) ∧ SameButIndexAndPc s t

/-- Two states that differ at most in what no instruction reads: `ST`, the two timestamps, `DIRTY` (R22, R23, R25). -/
def AgreeButUnread (s t : State) : Prop :=
  t = { s with st := t.st, dtLast := t.dtLast, stLast := t.stLast, dirty := t.dirty }

end Sys2Proof.Machine
end

