-- ==== Sys2Proof/Certificates/Slice0/Obligations.lean ====
section
/-! DEFINITION. The statements for the provers, from the spec's numbered rules. `exec i s = .next t` in a conclusion
says that the instruction completes. Where a clause rests on a log entry of the model, the docstring names it. -/

open Sys2Proof Sys2Proof.Machine

/-! ## Encoding (30_encoding.md) -/

/-- Decode and encode agree, for every instruction with every operand, on the word and on the bytes in memory order
(R62, R65, R66). -/
def Obligations.DecodeOfEncodeIsTheInstruction : Prop :=
  ∀ (i : Instr) (rest : List Byte),
    decodeWord (encode i) = .instr i ∧ decodeBytes (encodeBytes i ++ rest) = .ok (i, rest)

/-- Each mnemonic "stands for exactly one encoding row" (R70): a word that decodes to an instruction is the word that
instruction encodes to. -/
def Obligations.EncodeOfDecodeIsTheWord : Prop :=
  ∀ (op : Word) (i : Instr), decodeWord op = .instr i → encode i = op

/-- The decoder of R65 and the opcode map of R66 say the same of every word: an instruction's row selects the word and
no other row does, and no row selects an unrecognized word. -/
def Obligations.DecodeAgreesWithTheOpcodeMap : Prop :=
  ∀ op : Word,
    (∀ i, decodeWord op = .instr i → i.mnemonic.row ∈ opcodeTable ∧
      ∀ r ∈ opcodeTable, (r.selects op = true ↔ r = i.mnemonic.row)) ∧
    (∀ w, decodeWord op = .unrecognized w → w = op ∧ ∀ r ∈ opcodeTable, r.selects op = false)

/-- R68 and R205: exactly the words of R68's table are unrecognized, and a `Step` at one of them reports it and only
advances `PC` by 2. -/
def Obligations.UnrecognizedWordsAreReportedNoOps : Prop :=
  (∀ op : Word, decodeWord op = .unrecognized op ↔ InUnrecognizedSpace op.toNat) ∧
  (∀ s : State, s.Ready → InUnrecognizedSpace s.fetch.toNat →
    ∃ t, step s = .next t ∧ t.pc.toNat = s.pcAfter (s.pc.toNat + 2) ∧ SameButPc s t ∧ s.report = some s.fetch)

/-- A few words whose decoding the spec writes out (95_test_vectors.md §2.6). -/
def Obligations.SpecWordsDecodeAsWritten : Prop :=
  decodeWord 0xD7A9#16 = .instr (.drw 7 10 9) ∧ decodeWord 0x3C5A#16 = .instr (.se 12 0x5A) ∧
  decodeWord 0x2ABC#16 = .instr (.call 0xABC) ∧ decodeWord 0x8EF4#16 = .instr (.add 14 15) ∧
  decodeWord 0x1234#16 = .instr (.jp 0x234) ∧ decodeWord 0x00EE#16 = .instr .ret ∧
  decodeWord 0xE1A1#16 = .instr (.sknp 1) ∧ decodeWord 0xF165#16 = .instr (.ldm 1) ∧
  decodeWord 0x5011#16 = .unrecognized 0x5011 ∧ decodeWord 0x8129#16 = .unrecognized 0x8129

/-- "Assembly and disassembly are one-to-one" (R70): every word disassembles to a line that assembles to it, and the
line of an instruction is the only one that assembles to that instruction. -/
def Obligations.AssemblyAndDisassemblyAreOneToOne : Prop :=
  (∀ op : Word, assembleLine (disassemble op) = some op) ∧
  (∀ (l : SourceInstr) (i : Instr), assembleInstr l = some i ↔ l = i.source)

/-! ## The step, fetch, faults -/

/-- A step runs the decoded instruction (R60): when the two bytes at `PC` decode to `i` and the CPU is running, the
step is `exec i`, with an empty agenda and with a `Step` at the head of the agenda (the agenda is the model's, log 2),
and it reports nothing. -/
def Obligations.StepRunsTheDecodedInstruction : Prop :=
  ∀ (s : State) (i : Instr), s.fault = .none →
    decodeBytes [s.memRead s.pc.toNat, s.memRead (s.pc.toNat + 1)] = .ok (i, []) →
    (s.agenda = [] → step s = exec i s) ∧
    (∀ rest, step { s with agenda := .step :: rest } = exec i { s with agenda := rest }) ∧
    s.report = none

/-- Fetch is big-endian, reduces both addresses modulo 4096 and does not change with the parity of `PC` (R42, R43): at
`PC` = 0xFFF the second byte is `MEM[0x000]`. -/
def Obligations.FetchIsBigEndianAndWraps : Prop :=
  ∀ s : State,
    s.fetch.toNat = 256 * (s.memRead s.pc.toNat).toNat + (s.memRead (s.pc.toNat + 1)).toNat ∧
    (s.pc.toNat = 0xFFF → s.fetch.toNat % 256 = (s.memRead 0).toNat)

/-- R203: while `FAULT != 0` a `Step` changes nothing, reports nothing and returns the code and `DIRTY`; the other
agents act as on a running CORE; and no operation but `Reset` clears `FAULT`. -/
def Obligations.HaltedStateIsStickyAndInert : Prop :=
  (∀ s : State, s.fault ≠ .none →
    cpuStep s = .next s ∧ stepOutputs s s = { redraw := s.dirty, report := none, fault := s.fault.code } ∧
    s.fault.code ≠ 0 ∧
    (∀ now, ∃ t, perform (.timerUpdate now) { s with fault := .none } = .next t ∧
      perform (.timerUpdate now) s = .next { t with fault := s.fault }) ∧
    (∀ k, perform (.setKeys k) s = .next { s with keys := k }) ∧
    perform .ackDirty s = .next { s with dirty := false }) ∧
  (∀ (s t : State) (o : Operation), s.fault ≠ .none → (∀ t0, o ≠ .reset t0) → perform o s = .next t →
    t.fault = s.fault)

/-- No instruction and no unrecognized word ends in a fault or a refusal of the model, in any state: the only events of
a `Step` are latched in `FAULT` or reported (R200, R201, R207). -/
def Obligations.EveryInstructionAnswersANextState : Prop :=
  ∀ s : State, (∀ i : Instr, ∃ t, exec i s = .next t) ∧ ∃ t, cpuStep s = .next t

/-- The only stop of a step is a `Load` on the agenda outside the port's addresses 0x200..0xFFF (R243; the form of the
stop is the model's, log 12). -/
def Obligations.OnlyABadLoadStopsAStep : Prop :=
  ∀ s : State,
    (∀ f, step s = .fault f ↔ ∃ addr b rest, s.agenda = .load addr b :: rest ∧ ¬ (0x200 ≤ addr ∧ addr ≤ 0xFFF) ∧
      f = .loadAddress addr) ∧
    (∀ r, step s ≠ .refused r)

/-- `PC` after a `Step`, by the whole table of R14: every instruction, every unrecognized word, and a halted CPU. -/
def Obligations.ProgramCounterFollowsTheTable : Prop :=
  (∀ (s : State) (i : Instr), s.StackLegal → ∃ t, exec i s = .next t ∧ t.pc.toNat = pcByTable s i) ∧
  (∀ (s : State) (op : Word), ∃ t, execUnrecognized op s = .next t ∧ t.pc.toNat = s.pcAfter (s.pc.toNat + 2)) ∧
  (∀ s : State, s.fault ≠ .none → ∃ t, cpuStep s = .next t ∧ t.pc = s.pc)

/-- The reduction of R13, on every argument and for every `PC_WRAP_MOD` the machine can be built with, so that `PC`
stays in 0..0xFFF; at the default modulus it is, on the arguments above 0xFFF that can occur, a subtraction of 0xFFF, and
it takes the values the rule lists. -/
def Obligations.ProgramCounterReduction : Prop :=
  (∀ (m : Config.WrapModulus) (t : Nat),
    (pcnorm m t).toNat = (if t ≤ 0xFFF then t else t % m.val) ∧ (pcnorm m t).toNat ≤ 0xFFF) ∧
  (∀ t : Nat, 0x1000 ≤ t → t ≤ 0x10FE → (pcnorm Config.defaults.pcWrapMod t).toNat + 0xFFF = t) ∧
  (pcnorm Config.defaults.pcWrapMod 0xFFF = 0xFFF#16 ∧ pcnorm Config.defaults.pcWrapMod 0x1000 = 0x001#16 ∧
    pcnorm Config.defaults.pcWrapMod 0x1001 = 0x002#16 ∧ pcnorm Config.defaults.pcWrapMod 0x1002 = 0x003#16 ∧
    pcnorm Config.defaults.pcWrapMod 0x1003 = 0x004#16 ∧ pcnorm Config.defaults.pcWrapMod 0x10FE = 0x0FF#16)

/-- "A skip may be implemented as two advances" (the spec's own inference in R14), at the default `PC_WRAP_MOD`, for
every `PC` of the machine. -/
def Obligations.SkipIsTwoAdvances : Prop :=
  ∀ (s : State) (pc : Nat), s.par.pcWrapMod.val = 0xFFF →
    (pc ≤ 0xFFF → pcnorm s.par.pcWrapMod (pc + 4) =
      pcnorm s.par.pcWrapMod ((pcnorm s.par.pcWrapMod (pc + 2)).toNat + 2)) ∧
    (s.pc.toNat ≤ 0xFFF → s.skipIf true = s.advance.advance)

/-- The access primitives of R40: a write changes that one byte and nothing else, at its address modulo 4096, and a
read finds it at every address with the same remainder. -/
def Obligations.MemoryAccessMovesOneByte : Prop :=
  ∀ (s : State) (a : Nat) (b : Byte),
    (∀ c, c % 4096 = a % 4096 → (s.memWrite a b).memRead c = b) ∧
    (∀ c, c % 4096 ≠ a % 4096 → (s.memWrite a b).memRead c = s.memRead c) ∧
    (s.memWrite a b).pc = s.pc ∧ SameButMemoryAndPc s (s.memWrite a b)

/-! ## Load, arithmetic, logic, shift, random (41_alu.md) -/

/-- `LD`, `MOV` (R120, R123): the result, and everything else unchanged. -/
def Obligations.LoadImmediateAndCopy : Prop :=
  ∀ (s : State) (x y : Reg) (nn : Byte),
    EncodedAs (.ld x nn) (0x6000 + 0x100 * x.val + nn.toNat) ∧
    EncodedAs (.mov x y) (0x8000 + 0x100 * x.val + 0x10 * y.val) ∧
    (∃ t, exec (.ld x nn) s = .next t ∧ RegEffect s t x nn.toNat) ∧
    (∃ t, exec (.mov x y) s = .next t ∧ RegEffect s t x (s.v[y]).toNat)

/-- `OR`, `AND`, `XOR` (R124, R125, R126): bit by bit, VF unchanged unless it is the destination (D13). -/
def Obligations.LogicIsBitwiseWithoutFlag : Prop :=
  ∀ (s : State) (x y : Reg),
    EncodedAs (.or x y) (0x8001 + 0x100 * x.val + 0x10 * y.val) ∧
    EncodedAs (.and x y) (0x8002 + 0x100 * x.val + 0x10 * y.val) ∧
    EncodedAs (.xor x y) (0x8003 + 0x100 * x.val + 0x10 * y.val) ∧
    (∃ t, exec (.or x y) s = .next t ∧ RegEffect s t x ((s.v[x]).toNat ||| (s.v[y]).toNat)) ∧
    (∃ t, exec (.and x y) s = .next t ∧ RegEffect s t x ((s.v[x]).toNat &&& (s.v[y]).toNat)) ∧
    (∃ t, exec (.xor x y) s = .next t ∧ RegEffect s t x ((s.v[x]).toNat ^^^ (s.v[y]).toNat))

/-- `ADDI` (R121): wraps modulo 256, VF not written unless it is the destination; and the source's property of `6xnn`
followed by `7xmm`. -/
def Obligations.AddImmediateWrapsWithoutFlag : Prop :=
  ∀ (s : State) (x : Reg) (nn mm : Byte),
    EncodedAs (.addi x nn) (0x7000 + 0x100 * x.val + nn.toNat) ∧
    (∃ t, exec (.addi x nn) s = .next t ∧ RegEffect s t x (((s.v[x]).toNat + nn.toNat) % 256)) ∧
    (∃ t u, exec (.ld x nn) s = .next t ∧ exec (.addi x mm) t = .next u ∧
      (u.v[x]).toNat = (nn.toNat + mm.toNat) % 256 ∧ SameRegsExcept (fun j => j = x) s u)

/-- `ADD` (R127): the sum modulo 256, VF the carry; with `x` = 0xF the carry is what VF holds (R122, D11). -/
def Obligations.AddSetsTheCarry : Prop :=
  ∀ (s : State) (x y : Reg),
    EncodedAs (.add x y) (0x8004 + 0x100 * x.val + 0x10 * y.val) ∧
    ∃ t, exec (.add x y) s = .next t ∧
      FlagEffect s t x (((s.v[x]).toNat + (s.v[y]).toNat) % 256) (flagNat (255 < (s.v[x]).toNat + (s.v[y]).toNat))

/-- `SUB` and `SUBN` (R128, R130): the difference modulo 256, VF 1 exactly when there is no borrow. -/
def Obligations.SubtractionsSetTheInvertedBorrow : Prop :=
  ∀ (s : State) (x y : Reg),
    EncodedAs (.sub x y) (0x8005 + 0x100 * x.val + 0x10 * y.val) ∧
    EncodedAs (.subn x y) (0x8007 + 0x100 * x.val + 0x10 * y.val) ∧
    (∃ t, exec (.sub x y) s = .next t ∧
      FlagEffect s t x (((s.v[x]).toNat + 256 - (s.v[y]).toNat) % 256) (flagNat ((s.v[x]).toNat ≥ (s.v[y]).toNat))) ∧
    (∃ t, exec (.subn x y) s = .next t ∧
      FlagEffect s t x (((s.v[y]).toNat + 256 - (s.v[x]).toNat) % 256) (flagNat ((s.v[y]).toNat ≥ (s.v[x]).toNat)))

/-- `SHR` and `SHL` (R129, R131), under both values of `SHIFT_SRC`: the source is `V[y]` or `V[x]`, and VF is the bit
shifted out of it. -/
def Obligations.ShiftsPutTheLostBitInTheFlag : Prop :=
  ∀ (s : State) (x y : Reg),
    EncodedAs (.shr x y) (0x8006 + 0x100 * x.val + 0x10 * y.val) ∧
    EncodedAs (.shl x y) (0x800E + 0x100 * x.val + 0x10 * y.val) ∧
    (∃ t, exec (.shr x y) s = .next t ∧
      (s.par.shiftSrc = .vy → FlagEffect s t x ((s.v[y]).toNat / 2) ((s.v[y]).toNat % 2)) ∧
      (s.par.shiftSrc = .vx → FlagEffect s t x ((s.v[x]).toNat / 2) ((s.v[x]).toNat % 2))) ∧
    (∃ t, exec (.shl x y) s = .next t ∧
      (s.par.shiftSrc = .vy → FlagEffect s t x (2 * (s.v[y]).toNat % 256) ((s.v[y]).toNat / 128)) ∧
      (s.par.shiftSrc = .vx → FlagEffect s t x (2 * (s.v[x]).toNat % 256) ((s.v[x]).toNat / 128)))

/-- `RND` (R132): the random byte of this `Step`, masked. The byte is the free value `Config.randomByte` of the next
draw and the draw is counted, which is the model's choice (log 1); what happens for a given byte is said of every
byte. -/
def Obligations.RandomByteIsMasked : Prop :=
  ∀ (s : State) (x : Reg) (nn : Byte),
    EncodedAs (.rnd x nn) (0xC000 + 0x100 * x.val + nn.toNat) ∧
    exec (.rnd x nn) s = .next (rndWith (Config.randomByte s.draws) x nn { s with draws := s.draws + 1 }) ∧
    ∀ rnd : Byte, RegEffect s (rndWith rnd x nn s) x (rnd.toNat &&& nn.toNat)

/-! ## Control transfer (40_flow.md) -/

/-- `JP` and `JP0` (R100, R101): the target, reduced modulo `PC_WRAP_MOD` above 0xFFF (D1), and nothing else
changes. -/
def Obligations.JumpsGoToTheirTarget : Prop :=
  ∀ (s : State) (nnn : Addr12),
    EncodedAs (.jp nnn) (0x1000 + nnn.toNat) ∧ EncodedAs (.jp0 nnn) (0xB000 + nnn.toNat) ∧
    (∃ t, exec (.jp nnn) s = .next t ∧ t.pc.toNat = nnn.toNat ∧ SameButPc s t) ∧
    (∃ t, exec (.jp0 nnn) s = .next t ∧ t.pc.toNat = s.pcAfter (nnn.toNat + (s.v[0]).toNat) ∧ SameButPc s t)

/-- `CALL` (R102): with room on the stack the address of the `CALL` is pushed, high byte first, and `PC` is `nnn`; with
`STACK_LEVELS` addresses on the stack `FAULT` is 2 and nothing else changes (D3, D4). That the stack has its bytes and
`SP` is legal is part of the invariant. -/
def Obligations.CallPushesItsOwnAddress : Prop :=
  ∀ (s : State) (nnn : Addr12),
    EncodedAs (.call nnn) (0x2000 + nnn.toNat) ∧
    (s.StackLegal → s.sp + 2 ≤ 2 * s.par.stackLevels → ∃ t, exec (.call nnn) s = .next t ∧
      t.sp = s.sp + 2 ∧ t.pc.toNat = nnn.toNat ∧
      (∀ j : Nat, t.stk[j]? =
        if j = s.sp then some (BitVec.ofNat 8 (s.pc.toNat / 256))
        else if j = s.sp + 1 then some (BitVec.ofNat 8 (s.pc.toNat % 256)) else s.stk[j]?) ∧
      SameRegs s t ∧ t.i = s.i ∧ SameMemory s t ∧ SameTimers s t ∧ SameScreen s t ∧ t.keys = s.keys ∧
      t.fault = s.fault ∧ SameModelFields s t) ∧
    (s.sp = 2 * s.par.stackLevels → exec (.call nnn) s = .next { s with fault := .stackOverflow })

/-- `RET` (R103): with an address on the stack it is popped and `PC` is that address plus 2; with fewer than two bytes
`FAULT` is 1 and nothing else changes (D3, D5). That the stack has its bytes and `SP` is legal is part of the
invariant. -/
def Obligations.ReturnPopsAndAddsTwo : Prop :=
  ∀ s : State,
    EncodedAs .ret 0x00EE ∧
    (s.StackLegal → 2 ≤ s.sp → ∃ t hi lo, exec .ret s = .next t ∧ s.stk[s.sp - 2]? = some hi ∧
      s.stk[s.sp - 1]? = some lo ∧ t.pc.toNat = s.pcAfter (256 * hi.toNat + lo.toNat + 2) ∧
      t.sp + 2 = s.sp ∧ t.stk = s.stk ∧
      SameRegs s t ∧ t.i = s.i ∧ SameMemory s t ∧ SameTimers s t ∧ SameScreen s t ∧ t.keys = s.keys ∧
      t.fault = s.fault ∧ SameModelFields s t) ∧
    (s.sp < 2 → exec .ret s = .next { s with fault := .stackUnderflow })

/-- "Call then Return returns the program counter to the instruction immediately after the original call instruction"
(R103), whatever ran in between, so long as the stack is again as the call left it. -/
def Obligations.ReturnResumesAfterTheCall : Prop :=
  ∀ (s u : State) (nnn : Addr12), s.StackLegal → s.sp + 2 ≤ 2 * s.par.stackLevels →
    ∃ t, exec (.call nnn) s = .next t ∧
      (u.par = s.par → u.sp = t.sp → u.stk = t.stk →
        ∃ w, exec .ret u = .next w ∧ w.pc.toNat = s.pcAfter (s.pc.toNat + 2) ∧ w.sp = s.sp)

/-- A fault is taken as R202 says: the two faulting instructions latch their code and change nothing else, whatever the
state. -/
def Obligations.TakingAFaultOnlyLatchesIt : Prop :=
  (∀ (s : State) (f : FaultLatch), s.raise f = { s with fault := f }) ∧
  (∀ (i : Instr) (s t : State), exec i s = .next t → t.fault ≠ s.fault →
    t = { s with fault := t.fault } ∧
      ((i = .ret ∧ t.fault = .stackUnderflow ∧ t.fault.code = 1) ∨
       (∃ nnn, i = .call nnn ∧ t.fault = .stackOverflow ∧ t.fault.code = 2)))

/-- `SE`, `SNE`, `SER`, `SNER` (R104 to R107): `PC` passes over one instruction exactly when the condition holds, and
nothing else changes. -/
def Obligations.ComparisonsSkipOneInstruction : Prop :=
  ∀ (s : State) (x y : Reg) (nn : Byte),
    EncodedAs (.se x nn) (0x3000 + 0x100 * x.val + nn.toNat) ∧
    EncodedAs (.sne x nn) (0x4000 + 0x100 * x.val + nn.toNat) ∧
    EncodedAs (.ser x y) (0x5000 + 0x100 * x.val + 0x10 * y.val) ∧
    EncodedAs (.sner x y) (0x9000 + 0x100 * x.val + 0x10 * y.val) ∧
    (∃ t, exec (.se x nn) s = .next t ∧ SkipEffect s t (s.v[x] = nn)) ∧
    (∃ t, exec (.sne x nn) s = .next t ∧ SkipEffect s t (s.v[x] ≠ nn)) ∧
    (∃ t, exec (.ser x y) s = .next t ∧ SkipEffect s t (s.v[x] = s.v[y])) ∧
    (∃ t, exec (.sner x y) s = .next t ∧ SkipEffect s t (s.v[x] ≠ s.v[y]))

/-- A `JP` to its own address is a fixed point of `Step` (R100, R246). -/
def Obligations.SelfJumpIsAFixedPoint : Prop :=
  ∀ s : State, s.Ready → s.pc.toNat ≤ 0xFFF → s.fetch.toNat = 0x1000 + s.pc.toNat → step s = .next s

/-! ## Index register and memory (42_index_memory.md) -/

/-- `LDI`, `ADDIX`, `FONT` (R140, R141, R142): `I` is the address, the sum modulo 65536, the glyph of the low nibble
(D15); VF and everything else unchanged. -/
def Obligations.IndexRegisterWrites : Prop :=
  ∀ (s : State) (x : Reg) (nnn : Addr12),
    EncodedAs (.ldi nnn) (0xA000 + nnn.toNat) ∧
    EncodedAs (.addix x) (0xF01E + 0x100 * x.val) ∧
    EncodedAs (.font x) (0xF029 + 0x100 * x.val) ∧
    (∃ t, exec (.ldi nnn) s = .next t ∧ IndexEffect s t nnn.toNat) ∧
    (∃ t, exec (.addix x) s = .next t ∧ IndexEffect s t ((s.i.toNat + (s.v[x]).toNat) % 65536)) ∧
    (∃ t, exec (.font x) s = .next t ∧ IndexEffect s t (5 * ((s.v[x]).toNat % 16)))

/-- `BCD` (R143): the three digits at `I`, `I + 1`, `I + 2`, every other byte of memory and everything else unchanged,
`I` included (D14). -/
def Obligations.BcdStoresTheDecimalDigits : Prop :=
  ∀ (s : State) (x : Reg),
    EncodedAs (.bcd x) (0xF033 + 0x100 * x.val) ∧
    ∃ t, exec (.bcd x) s = .next t ∧
      (t.memRead (s.indexed 0)).toNat = (s.v[x]).toNat / 100 ∧
      (t.memRead (s.indexed 1)).toNat = (s.v[x]).toNat / 10 % 10 ∧
      (t.memRead (s.indexed 2)).toNat = (s.v[x]).toNat % 10 ∧
      SameMemoryExcept (fun a => ∃ k, k < 3 ∧ a = reduceAddr (s.indexed k)) s t ∧
      t.pc.toNat = s.pcAfter (s.pc.toNat + 2) ∧ SameButMemoryAndPc s t

/-- `STM` (R144): V0..Vx at `I ..`, every other byte of memory and everything else unchanged, `I` included (D14). -/
def Obligations.StoreBlockWritesTheRegisters : Prop :=
  ∀ (s : State) (x : Reg),
    EncodedAs (.stm x) (0xF055 + 0x100 * x.val) ∧
    ∃ t, exec (.stm x) s = .next t ∧
      (∀ j : Reg, j ≤ x → t.memRead (s.indexed j.val) = s.v[j]) ∧
      SameMemoryExcept (fun a => ∃ k, k ≤ x.val ∧ a = reduceAddr (s.indexed k)) s t ∧
      t.pc.toNat = s.pcAfter (s.pc.toNat + 2) ∧ SameButMemoryAndPc s t

/-- `LDM` (R145): V0..Vx from `I ..`, the registers above `x` and everything else unchanged, `I` included (D14). -/
def Obligations.LoadBlockReadsTheRegisters : Prop :=
  ∀ (s : State) (x : Reg),
    EncodedAs (.ldm x) (0xF065 + 0x100 * x.val) ∧
    ∃ t, exec (.ldm x) s = .next t ∧
      (∀ j : Reg, j ≤ x → t.v[j] = s.memRead (s.i.toNat + j.val)) ∧
      SameRegsExcept (fun j => j ≤ x) s t ∧
      t.pc.toNat = s.pcAfter (s.pc.toNat + 2) ∧ SameButRegsAndPc s t

/-- What `STM` stored, `LDM` loads back (R144, R145), from any later state with the same memory and the same `I`. -/
def Obligations.StoredBlockLoadsBack : Prop :=
  ∀ (s u : State) (x : Reg),
    ∃ t, exec (.stm x) s = .next t ∧
      (u.i = s.i → SameMemory t u → ∃ w, exec (.ldm x) u = .next w ∧ ∀ j : Reg, j ≤ x → w.v[j] = s.v[j])

/-- A byte written is seen by the very next fetch (R49): `STM` over the next instruction's bytes makes V0 and V1 the
next word fetched. -/
def Obligations.StoreIsSeenByTheNextFetch : Prop :=
  ∀ (s : State) (x : Reg), 1 ≤ x.val → s.pc.toNat ≤ 0xFFD → reduceAddr s.i.toNat = s.pc.toNat + 2 →
    ∃ t, exec (.stm x) s = .next t ∧ t.fetch = s.v[0] ++ s.v[1]

/-! ## Display (43_display.md) -/

/-- `CLS` (R160): every pixel off, `DIRTY` set, everything else unchanged. -/
def Obligations.ClearScreenBlanksAndMarksDirty : Prop :=
  ∀ s : State,
    EncodedAs .cls 0x00E0 ∧
    ∃ t, exec .cls s = .next t ∧
      (∀ r c, r < 32 → c < 64 → t.fb.pixel r c = false) ∧ t.dirty = true ∧
      t.pc.toNat = s.pcAfter (s.pc.toNat + 2) ∧
      SameRegs s t ∧ t.i = s.i ∧ SameStack s t ∧ SameMemory s t ∧ SameTimers s t ∧ t.keys = s.keys ∧
      t.fault = s.fault ∧ SameModelFields s t

/-- `DRW` (R161, R162): exactly the pixels under the sprite's unclipped 1-bits are toggled, VF is 1 exactly when one of
them was lit before, `DIRTY` is set always, and everything else is unchanged. The coordinates are those before VF is
written (D12). -/
def Obligations.DrawTogglesExactlyTheSpritePixels : Prop :=
  ∀ (s : State) (x y : Reg) (n : Nibble),
    EncodedAs (.drw x y n) (0xD000 + 0x100 * x.val + 0x10 * y.val + n.toNat) ∧
    ∃ t, exec (.drw x y n) s = .next t ∧
      (∀ r c, r < 32 → c < 64 →
        (SpriteBit s ((s.v[x]).toNat % 64) ((s.v[y]).toNat % 32) n.toNat r c → t.fb.pixel r c = !s.fb.pixel r c) ∧
        (¬ SpriteBit s ((s.v[x]).toNat % 64) ((s.v[y]).toNat % 32) n.toNat r c → t.fb.pixel r c = s.fb.pixel r c)) ∧
      ((∃ r c, r < 32 ∧ c < 64 ∧ s.fb.pixel r c = true ∧
        SpriteBit s ((s.v[x]).toNat % 64) ((s.v[y]).toNat % 32) n.toNat r c) → t.v[15] = 0x01#8) ∧
      ((¬ ∃ r c, r < 32 ∧ c < 64 ∧ s.fb.pixel r c = true ∧
        SpriteBit s ((s.v[x]).toNat % 64) ((s.v[y]).toNat % 32) n.toNat r c) → t.v[15] = 0x00#8) ∧
      t.dirty = true ∧ SameRegsExcept (fun j => j = 15) s t ∧ t.pc.toNat = s.pcAfter (s.pc.toNat + 2) ∧
      t.i = s.i ∧ SameStack s t ∧ SameMemory s t ∧ SameTimers s t ∧ t.keys = s.keys ∧
      t.fault = s.fault ∧ SameModelFields s t

/-- "Drawing the same sprite twice at the same origin ... restores the framebuffer to its pre-draw state" (R162), and
the second draw sets VF exactly when some unclipped 1-bit pixel was unlit before the first. -/
def Obligations.DrawingTwiceRestoresTheScreen : Prop :=
  ∀ (s u : State) (x y : Reg) (n : Nibble),
    ∃ t, exec (.drw x y n) s = .next t ∧
      (u.fb = t.fb → u.i = s.i → SameMemory s u → u.v[x] = s.v[x] → u.v[y] = s.v[y] →
        ∃ w, exec (.drw x y n) u = .next w ∧ w.fb = s.fb ∧
          (w.v[15] = 0x01#8 ↔ ∃ r c, r < 32 ∧ c < 64 ∧ s.fb.pixel r c = false ∧
            SpriteBit s ((s.v[x]).toNat % 64) ((s.v[y]).toNat % 32) n.toNat r c))

/-! ## Keys and timers (44_keys_timers.md, 60_exceptions.md) -/

/-- `SKP` and `SKNP` (R180, R181): the key is the low nibble of `V[x]` (D15). -/
def Obligations.KeyTestsSkipOneInstruction : Prop :=
  ∀ (s : State) (x : Reg),
    EncodedAs (.skp x) (0xE09E + 0x100 * x.val) ∧ EncodedAs (.sknp x) (0xE0A1 + 0x100 * x.val) ∧
    (∃ t, exec (.skp x) s = .next t ∧ SkipEffect s t (s.keys.toNat / 2 ^ ((s.v[x]).toNat % 16) % 2 = 1)) ∧
    (∃ t, exec (.sknp x) s = .next t ∧ SkipEffect s t (s.keys.toNat / 2 ^ ((s.v[x]).toNat % 16) % 2 = 0))

/-- `WKEY` (R182): with no key pressed nothing at all changes; else the least pressed key goes to `V[x]`. -/
def Obligations.KeyWaitHoldsOrTakesTheLowestKey : Prop :=
  ∀ (s : State) (x : Reg),
    EncodedAs (.wkey x) (0xF00A + 0x100 * x.val) ∧
    (s.keys = 0x0000#16 → exec (.wkey x) s = .next s) ∧
    (s.keys ≠ 0x0000#16 → ∃ t k, exec (.wkey x) s = .next t ∧ k < 16 ∧ s.keys.getLsbD k = true ∧
      (∀ j, j < k → s.keys.getLsbD j = false) ∧ RegEffect s t x k)

/-- `LDDT`, `STDT`, `STST` (R183, R184, R185): the counters move between `V[x]` and the timers; the timestamps and
everything else are unchanged (D18), and `tone_on` follows a write of `ST` at once. -/
def Obligations.TimerRegistersAreReadAndWritten : Prop :=
  ∀ (s : State) (x : Reg),
    EncodedAs (.lddt x) (0xF007 + 0x100 * x.val) ∧ EncodedAs (.stdt x) (0xF015 + 0x100 * x.val) ∧
    EncodedAs (.stst x) (0xF018 + 0x100 * x.val) ∧
    (∃ t, exec (.lddt x) s = .next t ∧ RegEffect s t x s.dt.toNat) ∧
    (∃ t, exec (.stdt x) s = .next t ∧ t.dt = s.v[x] ∧ t.pc.toNat = s.pcAfter (s.pc.toNat + 2) ∧
      SameButPc { s with dt := s.v[x] } t) ∧
    (∃ t, exec (.stst x) s = .next t ∧ t.st = s.v[x] ∧ t.pc.toNat = s.pcAfter (s.pc.toNat + 2) ∧
      (t.toneOn = true ↔ s.v[x] ≠ 0#8) ∧ SameButPc { s with st := s.v[x] } t)

/-- `TimerUpdate` (R220), with the machine's `TICK_US`: each timer whose window has closed is decremented, floor at 0,
and its timestamp is `now`; a timer whose window is open, or a `now` earlier than the timestamp, changes nothing;
nothing else ever changes. -/
def Obligations.TimerUpdateCountsDownWhenTheWindowCloses : Prop :=
  ∀ (s : State) (now : Nat), ∃ t, perform (.timerUpdate now) s = .next t ∧
    (s.dtLast ≤ now ∧ s.par.tickUs ≤ now - s.dtLast → t.dt.toNat = s.dt.toNat - 1 ∧ t.dtLast = now) ∧
    (¬ (s.dtLast ≤ now ∧ s.par.tickUs ≤ now - s.dtLast) → t.dt = s.dt ∧ t.dtLast = s.dtLast) ∧
    (s.stLast ≤ now ∧ s.par.tickUs ≤ now - s.stLast → t.st.toNat = s.st.toNat - 1 ∧ t.stLast = now) ∧
    (¬ (s.stLast ≤ now ∧ s.par.tickUs ≤ now - s.stLast) → t.st = s.st ∧ t.stLast = s.stLast) ∧
    t = { s with dt := t.dt, dtLast := t.dtLast, st := t.st, stLast := t.stLast }

/-- "Updates occur no more than once per fixed interval ... regardless of how often the update operation is invoked"
(R221): updates whose times all lie within less than one interval lower a timer by at most 1. -/
def Obligations.AtMostOneDecrementPerInterval : Prop :=
  ∀ (s t : State) (first : Nat) (times : List Nat),
    (∀ now ∈ times, first ≤ now ∧ now < first + s.par.tickUs) →
    performAll (times.map .timerUpdate) s = .next t →
    s.dt.toNat - 1 ≤ t.dt.toNat ∧ t.dt.toNat ≤ s.dt.toNat ∧ s.st.toNat - 1 ≤ t.st.toNat ∧ t.st.toNat ≤ s.st.toNat

/-- The time-free view (R222), given the equal timestamps that R220 derives and the invariant holds: an update leaves
both timers alone or lowers both by 1, floor at 0. -/
def Obligations.TimerUpdateIsATickOrNothing : Prop :=
  ∀ (s : State) (now : Nat), s.dtLast = s.stLast → ∃ t, perform (.timerUpdate now) s = .next t ∧
    t.dtLast = t.stLast ∧
    ((t.dt = s.dt ∧ t.st = s.st) ∨ (t.dt.toNat = s.dt.toNat - 1 ∧ t.st.toNat = s.st.toNat - 1))

/-- `SetKeys` and `AckDirty` (R226, R228): one field each, and nothing else. -/
def Obligations.HostWritesKeysAndAcknowledges : Prop :=
  ∀ (s : State) (k : Word),
    (∃ t, perform (.setKeys k) s = .next t ∧ t.keys = k ∧ t = { s with keys := t.keys }) ∧
    (∃ t, perform .ackDirty s = .next t ∧ t.dirty = false ∧ (∀ r c, t.fb.pixel r c = s.fb.pixel r c) ∧
      t = { s with dirty := t.dirty })

/-! ## Reset, load, boot (70_reset_and_hazards.md) -/

/-- `Reset` (R240, R30): every piece of the CORE's state at its reset value, from any state. The parameters stay as they
are; `FONT` and `MEM_INIT` are what memory holds (the default font is PRESUMED, log 5). -/
def Obligations.ResetLeavesTheResetState : Prop :=
  ∀ (s : State) (t0 : Nat), ∃ t, perform (.reset t0) s = .next t ∧
    (∀ j : Reg, t.v[j] = 0x00#8) ∧ t.i = 0x0000#16 ∧ t.pc = 0x0200#16 ∧ t.sp = 0 ∧
    t.stk.length = 2 * s.par.stackLevels ∧ (∀ b ∈ t.stk, b = 0x00#8) ∧
    (∀ a, a < 80 → s.par.font[a]? = some (t.memRead a)) ∧
    (∀ a, 80 ≤ a → a < 4096 → t.memRead a = s.par.memInit) ∧
    t.dt = 0x00#8 ∧ t.st = 0x00#8 ∧ t.dtLast = t0 ∧ t.stLast = t0 ∧
    (∀ r c, r < 32 → c < 64 → t.fb.pixel r c = false) ∧ t.dirty = false ∧ t.keys = 0x0000#16 ∧ t.fault = .none ∧
    t.par = s.par

/-- `Load` (R243): at an address of 0x200..0xFFF the byte is written and every other byte and all else stays. At any
other address the model stops with a fault of its own, its reading of a port that has no such address (log 12). -/
def Obligations.LoadWritesOneByteOfTheProgramArea : Prop :=
  ∀ (s : State) (addr : Nat) (b : Byte),
    (0x200 ≤ addr ∧ addr ≤ 0xFFF → ∃ t, perform (.load addr b) s = .next t ∧ t.memRead addr = b ∧
      SameMemoryExcept (fun a => a = addr) s t ∧ t.pc = s.pc ∧ SameButMemoryAndPc s t) ∧
    (¬ (0x200 ≤ addr ∧ addr ≤ 0xFFF) → perform (.load addr b) s = .fault (.loadAddress addr))

/-- Booting (R242, R243): an image of at most 3584 bytes stands at 0x200 and up, everything else at its reset value, and
the first fetch reads the image's first two bytes; a longer one is refused and the machine is not started (log 12). -/
def Obligations.BootPlacesTheImage : Prop :=
  ∀ (t0 : Nat) (image : List Byte) (par : Config.Parameters),
    (image.length ≤ 3584 → ∃ t, boot t0 image par = .next t ∧
      (∀ k (h : k < image.length), t.memRead (0x200 + k) = image[k]) ∧
      (∀ a, a < 4096 → ¬ (0x200 ≤ a ∧ a < 0x200 + image.length) → t.memRead a = (State.resetAt t0 par).memRead a) ∧
      t = { State.resetAt t0 par with mem := t.mem } ∧
      (∀ b0 b1 rest, image = b0 :: b1 :: rest → t.fetch = b0 ++ b1)) ∧
    (3584 < image.length → boot t0 image par = .refused (.imageTooLong image.length))

/-- The state right after reset meets the invariant, whatever the parameters. -/
def Obligations.ResetMeetsTheInvariant : Prop :=
  ∀ (t0 : Nat) (par : Config.Parameters), (State.resetAt t0 par).Inv

/-! ## The whole machine -/

/-- Every step keeps the invariant: `PC` in 0..0xFFF (R12), the stack of its size with `SP` even and within it and
every return address in range (R16, R103), memory in its canonical form (log 6), equal timestamps (R220). It holds for a
step of any agent. -/
def Obligations.StepKeepsTheInvariant : Prop :=
  ∀ s t : State, s.Inv → step s = .next t → t.Inv

/-- The agenda is the sequence of operations of R6 (log 2): stepping through it is performing its operations in order,
each on the state the one before left, down to the same stop. -/
def Obligations.AgendaIsTheSequenceOfOperations : Prop :=
  ∀ (s : State) (ops : List Operation),
    Sys2Proof.core.run ops.length { s with agenda := ops } = performAll ops { s with agenda := [] }

/-- Which V registers an instruction may change (R11): its destination, and VF for the six flag writers, which leave
0 or 1 there. -/
def Obligations.OnlyDestinationsAndFlagChange : Prop :=
  ∀ (i : Instr) (s t : State), exec i s = .next t →
    (∀ j : Reg, t.v[j] ≠ s.v[j] → IsDestination j i ∨ (j = 15 ∧ IsFlagWriter i)) ∧
    (IsFlagWriter i → t.v[15] = 0x00#8 ∨ t.v[15] = 0x01#8)

/-- "Mutated only by opcodes that write memory" (R18): a byte of memory an instruction changes was changed by `BCD` or
`STM`, at one of the addresses R44 gives. -/
def Obligations.OnlyStoresChangeMemory : Prop :=
  ∀ (i : Instr) (s t : State) (a : Nat), exec i s = .next t → a < 4096 → t.memRead a ≠ s.memRead a →
    (∃ x k, i = .bcd x ∧ k < 3 ∧ a = reduceAddr (s.indexed k)) ∨
    (∃ x : Reg, ∃ k, i = .stm x ∧ k ≤ x.val ∧ a = reduceAddr (s.indexed k))

/-- The other single-purpose state, over all instructions: `I` (R15), `FB` and `DIRTY` (R24, R25), the timers (R22),
the timestamps (R23), `KEYS` (R26), the stack (R16) are written only by the instructions the rules name. -/
def Obligations.EachRegisterHasItsOwnWriters : Prop :=
  ∀ (i : Instr) (s t : State), exec i s = .next t →
    (t.i ≠ s.i → (∃ nnn, i = .ldi nnn) ∨ (∃ x, i = .addix x) ∨ (∃ x, i = .font x)) ∧
    (t.fb ≠ s.fb → i = .cls ∨ ∃ x y n, i = .drw x y n) ∧
    (t.dirty ≠ s.dirty → t.dirty = true ∧ (i = .cls ∨ ∃ x y n, i = .drw x y n)) ∧
    (t.dt ≠ s.dt → ∃ x, i = .stdt x) ∧ (t.st ≠ s.st → ∃ x, i = .stst x) ∧
    t.dtLast = s.dtLast ∧ t.stLast = s.stLast ∧ t.keys = s.keys ∧ t.agenda = s.agenda ∧
    (t.sp ≠ s.sp ∨ t.stk ≠ s.stk → i = .ret ∨ ∃ nnn, i = .call nnn)

/-- For the same random byte (log 1): two states that differ only in `ST`, the two timestamps and `DIRTY` are taken by a
`Step` to states that differ only there, and their reports are the same, since "no instruction reads it" (R25; R22, R23
alike). Both `Step`s take the same random byte, because the count of draws is among what the two states share (log 1).
The rest of the state R29 calls hidden (`FAULT`, `SP`, `STK`, `FB`) is not spoken of: it does influence a `Step`. -/
def Obligations.SoundTimerTimestampsAndDirtyDoNotInfluenceAStep : Prop :=
  ∀ s s' t t' : State, AgreeButUnread s s' → cpuStep s = .next t → cpuStep s' = .next t' →
    AgreeButUnread t t' ∧ s'.report = s.report

/-- The parameters of R4 at the defaults its table states; a machine is built with any others (`State.resetAt`). The
font's default bytes are R21's table (PRESUMED, log 5) and not repeated here. -/
def Obligations.ParametersStandAtTheStatedDefaults : Prop :=
  State.reset.par = Config.defaults ∧ Config.defaults.pcWrapMod.val = 0xFFF ∧ Config.defaults.stackLevels = 16 ∧
    Config.defaults.tickUs = 16667 ∧ Config.defaults.shiftSrc = .vy ∧ Config.defaults.memInit = 0x00#8 ∧
    ∀ (t0 : Nat) (par : Config.Parameters), (State.resetAt t0 par).par = par

/-- The parameters are arguments of the machine (R4), not something a step writes: every step of every agent leaves them
as they are (that they stand in State is the model's form of it, log 18). -/
def Obligations.EveryStepKeepsTheParameters : Prop :=
  ∀ s t : State, step s = .next t → t.par = s.par
end

