-- ==== Sys2Proof/Laws/Decode.lean ====
section
/-! SUPPORT. The fields of each format are read back as they were put in, and the number each format makes. -/

namespace Sys2Proof

theorem regBits_toNat (r : Reg) : (regBits r).toNat = r.val := rfl

theorem regBits_toFin (r : Reg) : (regBits r).toFin = r := rfl

/-- Two words of the same width are equal when their numbers are. -/
theorem formatNNN_toNat (m : Nibble) (nnn : Addr12) : (formatNNN m nnn).toNat = 0x1000 * m.toNat + nnn.toNat := by
  have h := nnn.isLt
  simp only [formatNNN, BitVec.toNat_append, Nat.shiftLeft_eq]
  rw [← Nat.shiftLeft_eq, ← Nat.shiftLeft_add_eq_or_of_lt (by omega), Nat.shiftLeft_eq]
  omega

theorem formatXNN_toNat (m : Nibble) (x : Reg) (nn : Byte) :
    (formatXNN m x nn).toNat = 0x1000 * m.toNat + 0x100 * x.val + nn.toNat := by
  have h := nn.isLt
  have hx := x.isLt
  have e : (m ++ regBits x).toNat = 0x10 * m.toNat + x.val := by
    simp only [BitVec.toNat_append, regBits_toNat]
    rw [← Nat.shiftLeft_add_eq_or_of_lt (by omega), Nat.shiftLeft_eq]
    omega
  simp only [formatXNN]
  rw [BitVec.toNat_append, e, ← Nat.shiftLeft_add_eq_or_of_lt (by omega), Nat.shiftLeft_eq]
  omega

theorem formatX_toNat (m : Nibble) (x : Reg) (b : Byte) :
    (formatX m x b).toNat = 0x1000 * m.toNat + 0x100 * x.val + b.toNat := formatXNN_toNat m x b

theorem formatXYN_toNat (m : Nibble) (x y : Reg) (n : Nibble) :
    (formatXYN m x y n).toNat = 0x1000 * m.toNat + 0x100 * x.val + 0x10 * y.val + n.toNat := by
  have h := n.isLt
  have hy := y.isLt
  have e : (regBits y ++ n).toNat = 0x10 * y.val + n.toNat := by
    simp only [BitVec.toNat_append, regBits_toNat]
    rw [← Nat.shiftLeft_add_eq_or_of_lt (by omega), Nat.shiftLeft_eq]
    omega
  have e2 : formatXYN m x y n = formatXNN m x (regBits y ++ n) := by
    apply BitVec.eq_of_toNat_eq
    have hx := x.isLt
    have e3 : (m ++ regBits x).toNat = 0x10 * m.toNat + x.val := by
      simp only [BitVec.toNat_append, regBits_toNat]
      rw [← Nat.shiftLeft_add_eq_or_of_lt (by omega), Nat.shiftLeft_eq]
      omega
    have e4 : (m ++ regBits x ++ regBits y).toNat = 0x100 * m.toNat + 0x10 * x.val + y.val := by
      rw [BitVec.toNat_append, e3, regBits_toNat, ← Nat.shiftLeft_add_eq_or_of_lt (by omega), Nat.shiftLeft_eq]
      omega
    rw [formatXNN_toNat, e]
    simp only [formatXYN]
    rw [BitVec.toNat_append, e4, ← Nat.shiftLeft_add_eq_or_of_lt (by omega), Nat.shiftLeft_eq]
    omega
  rw [e2, formatXNN_toNat, e]
  omega

/-! ## Fields as numbers -/

theorem opMajor_toNat (op : Word) : (opMajor op).toNat = op.toNat / 0x1000 := by
  have h := op.isLt
  simp only [opMajor, BitVec.extractLsb'_toNat, Nat.shiftRight_eq_div_pow]
  omega

theorem opX_val (op : Word) : (opX op).val = op.toNat / 0x100 % 0x10 := by
  show ((op.extractLsb' 8 4).toNat) = _
  simp only [BitVec.extractLsb'_toNat, Nat.shiftRight_eq_div_pow]

theorem opY_val (op : Word) : (opY op).val = op.toNat / 0x10 % 0x10 := by
  show ((op.extractLsb' 4 4).toNat) = _
  simp only [BitVec.extractLsb'_toNat, Nat.shiftRight_eq_div_pow]

theorem opN_toNat (op : Word) : (opN op).toNat = op.toNat % 0x10 := by
  simp [opN, BitVec.extractLsb'_toNat]

theorem opNN_toNat (op : Word) : (opNN op).toNat = op.toNat % 0x100 := by
  simp [opNN, BitVec.extractLsb'_toNat]

theorem opNNN_toNat (op : Word) : (opNNN op).toNat = op.toNat % 0x1000 := by
  simp [opNNN, BitVec.extractLsb'_toNat]

/-! ## Fields of a format -/

@[simp] theorem opMajor_formatNNN (m : Nibble) (a : Addr12) : opMajor (formatNNN m a) = m := by
  apply BitVec.eq_of_toNat_eq
  have := a.isLt
  rw [opMajor_toNat, formatNNN_toNat]
  omega

@[simp] theorem opNNN_formatNNN (m : Nibble) (a : Addr12) : opNNN (formatNNN m a) = a := by
  apply BitVec.eq_of_toNat_eq
  have := a.isLt
  rw [opNNN_toNat, formatNNN_toNat]
  omega

@[simp] theorem opMajor_formatXNN (m : Nibble) (x : Reg) (b : Byte) : opMajor (formatXNN m x b) = m := by
  apply BitVec.eq_of_toNat_eq
  have := b.isLt
  rw [opMajor_toNat, formatXNN_toNat]
  omega

@[simp] theorem opX_formatXNN (m : Nibble) (x : Reg) (b : Byte) : opX (formatXNN m x b) = x := by
  apply Fin.ext
  have := b.isLt
  rw [opX_val, formatXNN_toNat]
  omega

@[simp] theorem opNN_formatXNN (m : Nibble) (x : Reg) (b : Byte) : opNN (formatXNN m x b) = b := by
  apply BitVec.eq_of_toNat_eq
  have := b.isLt
  rw [opNN_toNat, formatXNN_toNat]
  omega

@[simp] theorem opMajor_formatX (m : Nibble) (x : Reg) (b : Byte) : opMajor (formatX m x b) = m :=
  opMajor_formatXNN m x b

@[simp] theorem opX_formatX (m : Nibble) (x : Reg) (b : Byte) : opX (formatX m x b) = x := opX_formatXNN m x b

@[simp] theorem opNN_formatX (m : Nibble) (x : Reg) (b : Byte) : opNN (formatX m x b) = b := opNN_formatXNN m x b

@[simp] theorem opMajor_formatXYN (m : Nibble) (x y : Reg) (n : Nibble) : opMajor (formatXYN m x y n) = m := by
  apply BitVec.eq_of_toNat_eq
  have := n.isLt
  rw [opMajor_toNat, formatXYN_toNat]
  omega

@[simp] theorem opX_formatXYN (m : Nibble) (x y : Reg) (n : Nibble) : opX (formatXYN m x y n) = x := by
  apply Fin.ext
  have := n.isLt
  rw [opX_val, formatXYN_toNat]
  omega

@[simp] theorem opY_formatXYN (m : Nibble) (x y : Reg) (n : Nibble) : opY (formatXYN m x y n) = y := by
  apply Fin.ext
  have := n.isLt
  rw [opY_val, formatXYN_toNat]
  omega

@[simp] theorem opN_formatXYN (m : Nibble) (x y : Reg) (n : Nibble) : opN (formatXYN m x y n) = n := by
  apply BitVec.eq_of_toNat_eq
  have := n.isLt
  rw [opN_toNat, formatXYN_toNat]
  omega

/-- The bytes of a word, put together again, are the word. -/
@[simp] theorem wordOfBytes_bytes (w : Word) : wordOfBytes (highByte w) (lowByte w) = w := by
  apply BitVec.eq_of_toNat_eq
  have h := w.isLt
  have hl : (lowByte w).toNat = w.toNat % 256 := by simp [lowByte, BitVec.extractLsb'_toNat]
  have hh : (highByte w).toNat = w.toNat / 256 := by
    simp only [highByte, BitVec.extractLsb'_toNat, Nat.shiftRight_eq_div_pow]
    omega
  simp only [wordOfBytes]
  rw [BitVec.toNat_append, ← Nat.shiftLeft_add_eq_or_of_lt (lowByte w).isLt, Nat.shiftLeft_eq, hl, hh]
  omega

/-- Two bytes combined big-endian, as a number (R42). -/
theorem wordOfBytes_toNat (hi lo : Byte) : (wordOfBytes hi lo).toNat = 256 * hi.toNat + lo.toNat := by
  simp only [wordOfBytes]
  rw [BitVec.toNat_append, ← Nat.shiftLeft_add_eq_or_of_lt lo.isLt, Nat.shiftLeft_eq]
  omega

/-- No two rows of the opcode map select one word: "the 34 rows ... are mutually exclusive" (R66). Two rows clash only
where they agree on the bits both fix. -/
theorem opcodeTable_disjoint :
    opcodeTable.Pairwise (fun r q => (r.opMatch ^^^ q.opMatch) &&& (r.opMask &&& q.opMask) ≠ 0#16) := by
  decide

end Sys2Proof
end

