-- ==== Sys2Proof/Laws/State.lean ====
section
/-! SUPPORT. One lemma per field per update of `State`, so that no proof unfolds a record update. -/

namespace Sys2Proof.Machine

/-! ## `setV` -/

@[simp] theorem State.setV_v (s : State) (x : Reg) (b : Byte) : (s.setV x b).v = s.v.set x b := rfl
@[simp] theorem State.setV_i (s : State) (x : Reg) (b : Byte) : (s.setV x b).i = s.i := rfl
@[simp] theorem State.setV_pc (s : State) (x : Reg) (b : Byte) : (s.setV x b).pc = s.pc := rfl
@[simp] theorem State.setV_stk (s : State) (x : Reg) (b : Byte) : (s.setV x b).stk = s.stk := rfl
@[simp] theorem State.setV_sp (s : State) (x : Reg) (b : Byte) : (s.setV x b).sp = s.sp := rfl
@[simp] theorem State.setV_mem (s : State) (x : Reg) (b : Byte) : (s.setV x b).mem = s.mem := rfl
@[simp] theorem State.setV_dt (s : State) (x : Reg) (b : Byte) : (s.setV x b).dt = s.dt := rfl
@[simp] theorem State.setV_st (s : State) (x : Reg) (b : Byte) : (s.setV x b).st = s.st := rfl
@[simp] theorem State.setV_dtLast (s : State) (x : Reg) (b : Byte) : (s.setV x b).dtLast = s.dtLast := rfl
@[simp] theorem State.setV_stLast (s : State) (x : Reg) (b : Byte) : (s.setV x b).stLast = s.stLast := rfl
@[simp] theorem State.setV_fb (s : State) (x : Reg) (b : Byte) : (s.setV x b).fb = s.fb := rfl
@[simp] theorem State.setV_dirty (s : State) (x : Reg) (b : Byte) : (s.setV x b).dirty = s.dirty := rfl
@[simp] theorem State.setV_keys (s : State) (x : Reg) (b : Byte) : (s.setV x b).keys = s.keys := rfl
@[simp] theorem State.setV_fault (s : State) (x : Reg) (b : Byte) : (s.setV x b).fault = s.fault := rfl
@[simp] theorem State.setV_draws (s : State) (x : Reg) (b : Byte) : (s.setV x b).draws = s.draws := rfl
@[simp] theorem State.setV_agenda (s : State) (x : Reg) (b : Byte) : (s.setV x b).agenda = s.agenda := rfl
@[simp] theorem State.setV_par (s : State) (x : Reg) (b : Byte) : (s.setV x b).par = s.par := rfl

/-! ## `setI` -/

@[simp] theorem State.setI_v (s : State) (w : Word) : (s.setI w).v = s.v := rfl
@[simp] theorem State.setI_i (s : State) (w : Word) : (s.setI w).i = w := rfl
@[simp] theorem State.setI_pc (s : State) (w : Word) : (s.setI w).pc = s.pc := rfl
@[simp] theorem State.setI_stk (s : State) (w : Word) : (s.setI w).stk = s.stk := rfl
@[simp] theorem State.setI_sp (s : State) (w : Word) : (s.setI w).sp = s.sp := rfl
@[simp] theorem State.setI_mem (s : State) (w : Word) : (s.setI w).mem = s.mem := rfl
@[simp] theorem State.setI_dt (s : State) (w : Word) : (s.setI w).dt = s.dt := rfl
@[simp] theorem State.setI_st (s : State) (w : Word) : (s.setI w).st = s.st := rfl
@[simp] theorem State.setI_dtLast (s : State) (w : Word) : (s.setI w).dtLast = s.dtLast := rfl
@[simp] theorem State.setI_stLast (s : State) (w : Word) : (s.setI w).stLast = s.stLast := rfl
@[simp] theorem State.setI_fb (s : State) (w : Word) : (s.setI w).fb = s.fb := rfl
@[simp] theorem State.setI_dirty (s : State) (w : Word) : (s.setI w).dirty = s.dirty := rfl
@[simp] theorem State.setI_keys (s : State) (w : Word) : (s.setI w).keys = s.keys := rfl
@[simp] theorem State.setI_fault (s : State) (w : Word) : (s.setI w).fault = s.fault := rfl
@[simp] theorem State.setI_draws (s : State) (w : Word) : (s.setI w).draws = s.draws := rfl
@[simp] theorem State.setI_agenda (s : State) (w : Word) : (s.setI w).agenda = s.agenda := rfl
@[simp] theorem State.setI_par (s : State) (w : Word) : (s.setI w).par = s.par := rfl

/-! ## `jump` -/

@[simp] theorem State.jump_v (s : State) (n : Nat) : (s.jump n).v = s.v := rfl
@[simp] theorem State.jump_i (s : State) (n : Nat) : (s.jump n).i = s.i := rfl
@[simp] theorem State.jump_pc (s : State) (n : Nat) : (s.jump n).pc = pcnorm s.par.pcWrapMod n := rfl
@[simp] theorem State.jump_stk (s : State) (n : Nat) : (s.jump n).stk = s.stk := rfl
@[simp] theorem State.jump_sp (s : State) (n : Nat) : (s.jump n).sp = s.sp := rfl
@[simp] theorem State.jump_mem (s : State) (n : Nat) : (s.jump n).mem = s.mem := rfl
@[simp] theorem State.jump_dt (s : State) (n : Nat) : (s.jump n).dt = s.dt := rfl
@[simp] theorem State.jump_st (s : State) (n : Nat) : (s.jump n).st = s.st := rfl
@[simp] theorem State.jump_dtLast (s : State) (n : Nat) : (s.jump n).dtLast = s.dtLast := rfl
@[simp] theorem State.jump_stLast (s : State) (n : Nat) : (s.jump n).stLast = s.stLast := rfl
@[simp] theorem State.jump_fb (s : State) (n : Nat) : (s.jump n).fb = s.fb := rfl
@[simp] theorem State.jump_dirty (s : State) (n : Nat) : (s.jump n).dirty = s.dirty := rfl
@[simp] theorem State.jump_keys (s : State) (n : Nat) : (s.jump n).keys = s.keys := rfl
@[simp] theorem State.jump_fault (s : State) (n : Nat) : (s.jump n).fault = s.fault := rfl
@[simp] theorem State.jump_draws (s : State) (n : Nat) : (s.jump n).draws = s.draws := rfl
@[simp] theorem State.jump_agenda (s : State) (n : Nat) : (s.jump n).agenda = s.agenda := rfl
@[simp] theorem State.jump_par (s : State) (n : Nat) : (s.jump n).par = s.par := rfl

/-! ## `advance` -/

@[simp] theorem State.advance_v (s : State) : (s.advance).v = s.v := rfl
@[simp] theorem State.advance_i (s : State) : (s.advance).i = s.i := rfl
@[simp] theorem State.advance_pc (s : State) : (s.advance).pc = pcnorm s.par.pcWrapMod (s.pc.toNat + 2) := rfl
@[simp] theorem State.advance_stk (s : State) : (s.advance).stk = s.stk := rfl
@[simp] theorem State.advance_sp (s : State) : (s.advance).sp = s.sp := rfl
@[simp] theorem State.advance_mem (s : State) : (s.advance).mem = s.mem := rfl
@[simp] theorem State.advance_dt (s : State) : (s.advance).dt = s.dt := rfl
@[simp] theorem State.advance_st (s : State) : (s.advance).st = s.st := rfl
@[simp] theorem State.advance_dtLast (s : State) : (s.advance).dtLast = s.dtLast := rfl
@[simp] theorem State.advance_stLast (s : State) : (s.advance).stLast = s.stLast := rfl
@[simp] theorem State.advance_fb (s : State) : (s.advance).fb = s.fb := rfl
@[simp] theorem State.advance_dirty (s : State) : (s.advance).dirty = s.dirty := rfl
@[simp] theorem State.advance_keys (s : State) : (s.advance).keys = s.keys := rfl
@[simp] theorem State.advance_fault (s : State) : (s.advance).fault = s.fault := rfl
@[simp] theorem State.advance_draws (s : State) : (s.advance).draws = s.draws := rfl
@[simp] theorem State.advance_agenda (s : State) : (s.advance).agenda = s.agenda := rfl
@[simp] theorem State.advance_par (s : State) : (s.advance).par = s.par := rfl

/-! ## `memWrite` -/

@[simp] theorem State.memWrite_v (s : State) (a : Nat) (b : Byte) : (s.memWrite a b).v = s.v := rfl
@[simp] theorem State.memWrite_i (s : State) (a : Nat) (b : Byte) : (s.memWrite a b).i = s.i := rfl
@[simp] theorem State.memWrite_pc (s : State) (a : Nat) (b : Byte) : (s.memWrite a b).pc = s.pc := rfl
@[simp] theorem State.memWrite_stk (s : State) (a : Nat) (b : Byte) : (s.memWrite a b).stk = s.stk := rfl
@[simp] theorem State.memWrite_sp (s : State) (a : Nat) (b : Byte) : (s.memWrite a b).sp = s.sp := rfl
@[simp] theorem State.memWrite_mem (s : State) (a : Nat) (b : Byte) : (s.memWrite a b).mem = s.mem.write s.par (reduceAddr a) b := rfl
@[simp] theorem State.memWrite_dt (s : State) (a : Nat) (b : Byte) : (s.memWrite a b).dt = s.dt := rfl
@[simp] theorem State.memWrite_st (s : State) (a : Nat) (b : Byte) : (s.memWrite a b).st = s.st := rfl
@[simp] theorem State.memWrite_dtLast (s : State) (a : Nat) (b : Byte) : (s.memWrite a b).dtLast = s.dtLast := rfl
@[simp] theorem State.memWrite_stLast (s : State) (a : Nat) (b : Byte) : (s.memWrite a b).stLast = s.stLast := rfl
@[simp] theorem State.memWrite_fb (s : State) (a : Nat) (b : Byte) : (s.memWrite a b).fb = s.fb := rfl
@[simp] theorem State.memWrite_dirty (s : State) (a : Nat) (b : Byte) : (s.memWrite a b).dirty = s.dirty := rfl
@[simp] theorem State.memWrite_keys (s : State) (a : Nat) (b : Byte) : (s.memWrite a b).keys = s.keys := rfl
@[simp] theorem State.memWrite_fault (s : State) (a : Nat) (b : Byte) : (s.memWrite a b).fault = s.fault := rfl
@[simp] theorem State.memWrite_draws (s : State) (a : Nat) (b : Byte) : (s.memWrite a b).draws = s.draws := rfl
@[simp] theorem State.memWrite_agenda (s : State) (a : Nat) (b : Byte) : (s.memWrite a b).agenda = s.agenda := rfl
@[simp] theorem State.memWrite_par (s : State) (a : Nat) (b : Byte) : (s.memWrite a b).par = s.par := rfl

/-! ## `push16` -/

@[simp] theorem State.push16_v (s : State) (a : Word) : (s.push16 a).v = s.v := rfl
@[simp] theorem State.push16_i (s : State) (a : Word) : (s.push16 a).i = s.i := rfl
@[simp] theorem State.push16_pc (s : State) (a : Word) : (s.push16 a).pc = s.pc := rfl
@[simp] theorem State.push16_stk (s : State) (a : Word) : (s.push16 a).stk = (s.stk.set s.sp (highByte a)).set (s.sp + 1) (lowByte a) := rfl
@[simp] theorem State.push16_sp (s : State) (a : Word) : (s.push16 a).sp = s.sp + 2 := rfl
@[simp] theorem State.push16_mem (s : State) (a : Word) : (s.push16 a).mem = s.mem := rfl
@[simp] theorem State.push16_dt (s : State) (a : Word) : (s.push16 a).dt = s.dt := rfl
@[simp] theorem State.push16_st (s : State) (a : Word) : (s.push16 a).st = s.st := rfl
@[simp] theorem State.push16_dtLast (s : State) (a : Word) : (s.push16 a).dtLast = s.dtLast := rfl
@[simp] theorem State.push16_stLast (s : State) (a : Word) : (s.push16 a).stLast = s.stLast := rfl
@[simp] theorem State.push16_fb (s : State) (a : Word) : (s.push16 a).fb = s.fb := rfl
@[simp] theorem State.push16_dirty (s : State) (a : Word) : (s.push16 a).dirty = s.dirty := rfl
@[simp] theorem State.push16_keys (s : State) (a : Word) : (s.push16 a).keys = s.keys := rfl
@[simp] theorem State.push16_fault (s : State) (a : Word) : (s.push16 a).fault = s.fault := rfl
@[simp] theorem State.push16_draws (s : State) (a : Word) : (s.push16 a).draws = s.draws := rfl
@[simp] theorem State.push16_agenda (s : State) (a : Word) : (s.push16 a).agenda = s.agenda := rfl
@[simp] theorem State.push16_par (s : State) (a : Word) : (s.push16 a).par = s.par := rfl

/-! ## `dropTop16` -/

@[simp] theorem State.dropTop16_v (s : State) : (s.dropTop16).v = s.v := rfl
@[simp] theorem State.dropTop16_i (s : State) : (s.dropTop16).i = s.i := rfl
@[simp] theorem State.dropTop16_pc (s : State) : (s.dropTop16).pc = s.pc := rfl
@[simp] theorem State.dropTop16_stk (s : State) : (s.dropTop16).stk = s.stk := rfl
@[simp] theorem State.dropTop16_sp (s : State) : (s.dropTop16).sp = s.sp - 2 := rfl
@[simp] theorem State.dropTop16_mem (s : State) : (s.dropTop16).mem = s.mem := rfl
@[simp] theorem State.dropTop16_dt (s : State) : (s.dropTop16).dt = s.dt := rfl
@[simp] theorem State.dropTop16_st (s : State) : (s.dropTop16).st = s.st := rfl
@[simp] theorem State.dropTop16_dtLast (s : State) : (s.dropTop16).dtLast = s.dtLast := rfl
@[simp] theorem State.dropTop16_stLast (s : State) : (s.dropTop16).stLast = s.stLast := rfl
@[simp] theorem State.dropTop16_fb (s : State) : (s.dropTop16).fb = s.fb := rfl
@[simp] theorem State.dropTop16_dirty (s : State) : (s.dropTop16).dirty = s.dirty := rfl
@[simp] theorem State.dropTop16_keys (s : State) : (s.dropTop16).keys = s.keys := rfl
@[simp] theorem State.dropTop16_fault (s : State) : (s.dropTop16).fault = s.fault := rfl
@[simp] theorem State.dropTop16_draws (s : State) : (s.dropTop16).draws = s.draws := rfl
@[simp] theorem State.dropTop16_agenda (s : State) : (s.dropTop16).agenda = s.agenda := rfl
@[simp] theorem State.dropTop16_par (s : State) : (s.dropTop16).par = s.par := rfl

/-! ## `raise` -/

@[simp] theorem State.raise_v (s : State) (f : FaultLatch) : (s.raise f).v = s.v := rfl
@[simp] theorem State.raise_i (s : State) (f : FaultLatch) : (s.raise f).i = s.i := rfl
@[simp] theorem State.raise_pc (s : State) (f : FaultLatch) : (s.raise f).pc = s.pc := rfl
@[simp] theorem State.raise_stk (s : State) (f : FaultLatch) : (s.raise f).stk = s.stk := rfl
@[simp] theorem State.raise_sp (s : State) (f : FaultLatch) : (s.raise f).sp = s.sp := rfl
@[simp] theorem State.raise_mem (s : State) (f : FaultLatch) : (s.raise f).mem = s.mem := rfl
@[simp] theorem State.raise_dt (s : State) (f : FaultLatch) : (s.raise f).dt = s.dt := rfl
@[simp] theorem State.raise_st (s : State) (f : FaultLatch) : (s.raise f).st = s.st := rfl
@[simp] theorem State.raise_dtLast (s : State) (f : FaultLatch) : (s.raise f).dtLast = s.dtLast := rfl
@[simp] theorem State.raise_stLast (s : State) (f : FaultLatch) : (s.raise f).stLast = s.stLast := rfl
@[simp] theorem State.raise_fb (s : State) (f : FaultLatch) : (s.raise f).fb = s.fb := rfl
@[simp] theorem State.raise_dirty (s : State) (f : FaultLatch) : (s.raise f).dirty = s.dirty := rfl
@[simp] theorem State.raise_keys (s : State) (f : FaultLatch) : (s.raise f).keys = s.keys := rfl
@[simp] theorem State.raise_fault (s : State) (f : FaultLatch) : (s.raise f).fault = f := rfl
@[simp] theorem State.raise_draws (s : State) (f : FaultLatch) : (s.raise f).draws = s.draws := rfl
@[simp] theorem State.raise_agenda (s : State) (f : FaultLatch) : (s.raise f).agenda = s.agenda := rfl
@[simp] theorem State.raise_par (s : State) (f : FaultLatch) : (s.raise f).par = s.par := rfl

/-! ## `markDirty` -/

@[simp] theorem State.markDirty_v (s : State) : (s.markDirty).v = s.v := rfl
@[simp] theorem State.markDirty_i (s : State) : (s.markDirty).i = s.i := rfl
@[simp] theorem State.markDirty_pc (s : State) : (s.markDirty).pc = s.pc := rfl
@[simp] theorem State.markDirty_stk (s : State) : (s.markDirty).stk = s.stk := rfl
@[simp] theorem State.markDirty_sp (s : State) : (s.markDirty).sp = s.sp := rfl
@[simp] theorem State.markDirty_mem (s : State) : (s.markDirty).mem = s.mem := rfl
@[simp] theorem State.markDirty_dt (s : State) : (s.markDirty).dt = s.dt := rfl
@[simp] theorem State.markDirty_st (s : State) : (s.markDirty).st = s.st := rfl
@[simp] theorem State.markDirty_dtLast (s : State) : (s.markDirty).dtLast = s.dtLast := rfl
@[simp] theorem State.markDirty_stLast (s : State) : (s.markDirty).stLast = s.stLast := rfl
@[simp] theorem State.markDirty_fb (s : State) : (s.markDirty).fb = s.fb := rfl
@[simp] theorem State.markDirty_dirty (s : State) : (s.markDirty).dirty = true := rfl
@[simp] theorem State.markDirty_keys (s : State) : (s.markDirty).keys = s.keys := rfl
@[simp] theorem State.markDirty_fault (s : State) : (s.markDirty).fault = s.fault := rfl
@[simp] theorem State.markDirty_draws (s : State) : (s.markDirty).draws = s.draws := rfl
@[simp] theorem State.markDirty_agenda (s : State) : (s.markDirty).agenda = s.agenda := rfl
@[simp] theorem State.markDirty_par (s : State) : (s.markDirty).par = s.par := rfl

/-! ## `setVFlag` -/

@[simp] theorem State.setVFlag_v (s : State) (x : Reg) (b : Byte) (c : Bool) : (s.setVFlag x b c).v = (s.v.set x b).set Reg.vf (flagByte c) := rfl
@[simp] theorem State.setVFlag_i (s : State) (x : Reg) (b : Byte) (c : Bool) : (s.setVFlag x b c).i = s.i := rfl
@[simp] theorem State.setVFlag_pc (s : State) (x : Reg) (b : Byte) (c : Bool) : (s.setVFlag x b c).pc = s.pc := rfl
@[simp] theorem State.setVFlag_stk (s : State) (x : Reg) (b : Byte) (c : Bool) : (s.setVFlag x b c).stk = s.stk := rfl
@[simp] theorem State.setVFlag_sp (s : State) (x : Reg) (b : Byte) (c : Bool) : (s.setVFlag x b c).sp = s.sp := rfl
@[simp] theorem State.setVFlag_mem (s : State) (x : Reg) (b : Byte) (c : Bool) : (s.setVFlag x b c).mem = s.mem := rfl
@[simp] theorem State.setVFlag_dt (s : State) (x : Reg) (b : Byte) (c : Bool) : (s.setVFlag x b c).dt = s.dt := rfl
@[simp] theorem State.setVFlag_st (s : State) (x : Reg) (b : Byte) (c : Bool) : (s.setVFlag x b c).st = s.st := rfl
@[simp] theorem State.setVFlag_dtLast (s : State) (x : Reg) (b : Byte) (c : Bool) : (s.setVFlag x b c).dtLast = s.dtLast := rfl
@[simp] theorem State.setVFlag_stLast (s : State) (x : Reg) (b : Byte) (c : Bool) : (s.setVFlag x b c).stLast = s.stLast := rfl
@[simp] theorem State.setVFlag_fb (s : State) (x : Reg) (b : Byte) (c : Bool) : (s.setVFlag x b c).fb = s.fb := rfl
@[simp] theorem State.setVFlag_dirty (s : State) (x : Reg) (b : Byte) (c : Bool) : (s.setVFlag x b c).dirty = s.dirty := rfl
@[simp] theorem State.setVFlag_keys (s : State) (x : Reg) (b : Byte) (c : Bool) : (s.setVFlag x b c).keys = s.keys := rfl
@[simp] theorem State.setVFlag_fault (s : State) (x : Reg) (b : Byte) (c : Bool) : (s.setVFlag x b c).fault = s.fault := rfl
@[simp] theorem State.setVFlag_draws (s : State) (x : Reg) (b : Byte) (c : Bool) : (s.setVFlag x b c).draws = s.draws := rfl
@[simp] theorem State.setVFlag_agenda (s : State) (x : Reg) (b : Byte) (c : Bool) : (s.setVFlag x b c).agenda = s.agenda := rfl
@[simp] theorem State.setVFlag_par (s : State) (x : Reg) (b : Byte) (c : Bool) : (s.setVFlag x b c).par = s.par := rfl

/-! ## `skipIf` -/

@[simp] theorem State.skipIf_v (s : State) (c : Bool) : (s.skipIf c).v = s.v := by cases c <;> rfl
@[simp] theorem State.skipIf_i (s : State) (c : Bool) : (s.skipIf c).i = s.i := by cases c <;> rfl
@[simp] theorem State.skipIf_pc (s : State) (c : Bool) :
    (s.skipIf c).pc = pcnorm s.par.pcWrapMod (s.pc.toNat + if c then 4 else 2) := by cases c <;> rfl
@[simp] theorem State.skipIf_stk (s : State) (c : Bool) : (s.skipIf c).stk = s.stk := by cases c <;> rfl
@[simp] theorem State.skipIf_sp (s : State) (c : Bool) : (s.skipIf c).sp = s.sp := by cases c <;> rfl
@[simp] theorem State.skipIf_mem (s : State) (c : Bool) : (s.skipIf c).mem = s.mem := by cases c <;> rfl
@[simp] theorem State.skipIf_dt (s : State) (c : Bool) : (s.skipIf c).dt = s.dt := by cases c <;> rfl
@[simp] theorem State.skipIf_st (s : State) (c : Bool) : (s.skipIf c).st = s.st := by cases c <;> rfl
@[simp] theorem State.skipIf_dtLast (s : State) (c : Bool) : (s.skipIf c).dtLast = s.dtLast := by cases c <;> rfl
@[simp] theorem State.skipIf_stLast (s : State) (c : Bool) : (s.skipIf c).stLast = s.stLast := by cases c <;> rfl
@[simp] theorem State.skipIf_fb (s : State) (c : Bool) : (s.skipIf c).fb = s.fb := by cases c <;> rfl
@[simp] theorem State.skipIf_dirty (s : State) (c : Bool) : (s.skipIf c).dirty = s.dirty := by cases c <;> rfl
@[simp] theorem State.skipIf_keys (s : State) (c : Bool) : (s.skipIf c).keys = s.keys := by cases c <;> rfl
@[simp] theorem State.skipIf_fault (s : State) (c : Bool) : (s.skipIf c).fault = s.fault := by cases c <;> rfl
@[simp] theorem State.skipIf_draws (s : State) (c : Bool) : (s.skipIf c).draws = s.draws := by cases c <;> rfl
@[simp] theorem State.skipIf_agenda (s : State) (c : Bool) : (s.skipIf c).agenda = s.agenda := by cases c <;> rfl
@[simp] theorem State.skipIf_par (s : State) (c : Bool) : (s.skipIf c).par = s.par := by cases c <;> rfl

end Sys2Proof.Machine
end

