-- ==== Sys2Proof/Laws/Memory.lean ====
section
/-! SUPPORT. Memory: a read after a write, and every memory operation keeps the canonical form. -/

namespace Sys2Proof.Machine

variable {p : Config.Parameters}

theorem Memory.wfFrom_cons (lo k : Nat) (b : Byte) (t : Memory) :
    Memory.wfFrom p lo ((k, b) :: t) = true ↔
      lo ≤ k ∧ k < Config.memSize ∧ b ≠ Config.resetByte p k ∧ Memory.wfFrom p (k + 1) t = true := by
  simp [Memory.wfFrom, and_assoc]

theorem Memory.wfFrom_mono {lo lo' : Nat} {m : Memory} (h : lo' ≤ lo) (hm : Memory.wfFrom p lo m = true) :
    Memory.wfFrom p lo' m = true := by
  cases m with
  | nil => rfl
  | cons q t =>
    obtain ⟨k, b⟩ := q
    rw [Memory.wfFrom_cons] at hm ⊢
    exact ⟨h.trans hm.1, hm.2⟩

@[simp] theorem Memory.lookup_put_same (m : Memory) (a : Nat) (b : Byte) :
    Memory.lookup (Memory.put m a b) a = some b := by
  induction m with
  | nil => simp [Memory.put, Memory.lookup]
  | cons q t ih =>
    obtain ⟨k, d⟩ := q
    unfold Memory.put
    split
    · simp [Memory.lookup]
    · split
      · simp [Memory.lookup]
      · rename_i h1 h2
        have : k ≠ a := fun h => h2 h.symm
        simp [Memory.lookup, this, ih]

theorem Memory.lookup_put_other (m : Memory) {a c : Nat} (b : Byte) (h : c ≠ a) :
    Memory.lookup (Memory.put m a b) c = Memory.lookup m c := by
  induction m with
  | nil => simp [Memory.put, Memory.lookup, h.symm]
  | cons q t ih =>
    obtain ⟨k, d⟩ := q
    unfold Memory.put
    split
    · simp [Memory.lookup, h.symm]
    · split
      · rename_i h2
        subst h2
        simp [Memory.lookup, h.symm]
      · simp [Memory.lookup, ih]

@[simp] theorem Memory.lookup_erase_same (m : Memory) (a : Nat) : Memory.lookup (Memory.erase m a) a = none := by
  induction m with
  | nil => rfl
  | cons q t ih =>
    obtain ⟨k, d⟩ := q
    unfold Memory.erase
    split
    · exact ih
    · rename_i h
      have : k ≠ a := fun e => h e.symm
      simp [Memory.lookup, this, ih]

theorem Memory.lookup_erase_other (m : Memory) {a c : Nat} (h : c ≠ a) :
    Memory.lookup (Memory.erase m a) c = Memory.lookup m c := by
  induction m with
  | nil => rfl
  | cons q t ih =>
    obtain ⟨k, d⟩ := q
    unfold Memory.erase
    split
    · rename_i h2
      subst h2
      simp [Memory.lookup, h.symm, ih]
    · simp [Memory.lookup, ih]

/-- A write leaves every other address alone, in any memory. -/
theorem Memory.read_write_other (m : Memory) {a c : Nat} (b : Byte) (h : c ≠ a) :
    (m.write p a b).read p c = m.read p c := by
  unfold Memory.write Memory.read
  split
  · rw [Memory.lookup_erase_other m h]
  · rw [Memory.lookup_put_other m b h]

/-- A read after a write to the same address gives the byte written, in any memory. -/
@[simp] theorem Memory.read_write_same (m : Memory) (a : Nat) (b : Byte) : (m.write p a b).read p a = b := by
  unfold Memory.write Memory.read
  split
  · rename_i h
    rw [Memory.lookup_erase_same, h]
    rfl
  · rw [Memory.lookup_put_same]
    rfl

theorem Memory.wfFrom_put {lo a : Nat} {m : Memory} {b : Byte} (hm : Memory.wfFrom p lo m = true) (hlo : lo ≤ a)
    (ha : a < Config.memSize) (hb : b ≠ Config.resetByte p a) : Memory.wfFrom p lo (Memory.put m a b) = true := by
  induction m generalizing lo with
  | nil => exact (Memory.wfFrom_cons ..).2 ⟨hlo, ha, hb, rfl⟩
  | cons q t ih =>
    obtain ⟨k, d⟩ := q
    have hc := (Memory.wfFrom_cons ..).1 hm
    unfold Memory.put
    split
    · rename_i h
      exact (Memory.wfFrom_cons ..).2 ⟨hlo, ha, hb, (Memory.wfFrom_cons ..).2 ⟨h, hc.2⟩⟩
    · split
      · rename_i h
        subst h
        exact (Memory.wfFrom_cons ..).2 ⟨hlo, ha, hb, hc.2.2.2⟩
      · exact (Memory.wfFrom_cons ..).2 ⟨hc.1, hc.2.1, hc.2.2.1, ih hc.2.2.2 (by omega)⟩

theorem Memory.wfFrom_erase {lo : Nat} {m : Memory} (a : Nat) (hm : Memory.wfFrom p lo m = true) :
    Memory.wfFrom p lo (Memory.erase m a) = true := by
  induction m generalizing lo with
  | nil => rfl
  | cons q t ih =>
    obtain ⟨k, d⟩ := q
    have hc := (Memory.wfFrom_cons ..).1 hm
    unfold Memory.erase
    split
    · exact Memory.wfFrom_mono (by omega) (ih hc.2.2.2)
    · exact (Memory.wfFrom_cons ..).2 ⟨hc.1, hc.2.1, hc.2.2.1, ih hc.2.2.2⟩

/-- A write to an address of the space keeps the canonical form. -/
theorem Memory.wf_write {m : Memory} {a : Nat} (b : Byte) (hm : m.wf p = true) (ha : a < Config.memSize) :
    (m.write p a b).wf p = true := by
  unfold Memory.write Memory.wf
  split
  · exact Memory.wfFrom_erase a hm
  · rename_i h
    exact Memory.wfFrom_put hm (Nat.zero_le _) ha h

/-- Equal reads mean equal data: two canonical memories that read alike are the same list. -/
theorem Memory.lookup_eq_of_read_eq {lo : Nat} {m n : Memory} (hm : Memory.wfFrom p lo m = true)
    (hn : Memory.wfFrom p lo n = true) (h : ∀ a, m.read p a = n.read p a) (a : Nat) :
    Memory.lookup m a = Memory.lookup n a := by
  have listed : ∀ {lo : Nat} {m : Memory} {a : Nat} {b : Byte}, Memory.wfFrom p lo m = true →
      Memory.lookup m a = some b → b ≠ Config.resetByte p a := by
    intro lo m a b hw hl
    induction m generalizing lo with
    | nil => simp [Memory.lookup] at hl
    | cons q t ih =>
      obtain ⟨k, d⟩ := q
      have hc := (Memory.wfFrom_cons ..).1 hw
      by_cases hk : k = a
      · subst hk
        simp [Memory.lookup] at hl
        exact hl ▸ hc.2.2.1
      · simp [Memory.lookup, hk] at hl
        exact ih hc.2.2.2 hl
  have ha := h a
  unfold Memory.read at ha
  cases h1 : Memory.lookup m a with
  | none =>
    cases h2 : Memory.lookup n a with
    | none => rfl
    | some c => simp [h1, h2] at ha; exact absurd ha.symm (listed hn h2)
  | some b =>
    cases h2 : Memory.lookup n a with
    | none => simp [h1, h2] at ha; exact absurd ha (listed hm h1)
    | some c => simpa [h1, h2] using ha

theorem reduceAddr_lt (a : Nat) : reduceAddr a < Config.memSize := Nat.mod_lt _ (by decide)

@[simp] theorem reduceAddr_reduceAddr (a : Nat) : reduceAddr (reduceAddr a) = reduceAddr a := Nat.mod_mod _ _

theorem reduceAddr_of_lt {a : Nat} (h : a < 4096) : reduceAddr a = a := Nat.mod_eq_of_lt h

/-- `MemRead` after `MemWrite` to the same address (R40, R47). -/
theorem State.memRead_memWrite_same (s : State) {a c : Nat} (b : Byte) (h : reduceAddr c = reduceAddr a) :
    (s.memWrite a b).memRead c = b := by
  simp [State.memRead, h]

/-- `MemWrite` "changes that one byte and nothing else" (R40). -/
theorem State.memRead_memWrite_other (s : State) {a c : Nat} (b : Byte) (h : reduceAddr c ≠ reduceAddr a) :
    (s.memWrite a b).memRead c = s.memRead c := by
  simp only [State.memRead, State.memWrite_mem]
  exact Memory.read_write_other _ _ h

/-- `MemWrite` keeps the canonical form. -/
theorem State.wf_memWrite {s : State} (a : Nat) (b : Byte) (hm : s.mem.wf s.par = true) : (s.memWrite a b).mem.wf s.par = true :=
  Memory.wf_write b hm (reduceAddr_lt a)

@[simp] theorem State.memRead_reduce (s : State) (a : Nat) : s.memRead (reduceAddr a) = s.memRead a := by
  simp [State.memRead]

/-- Reading depends on the memory and the parameters alone. -/
theorem State.memRead_congr {s t : State} (h : t.mem = s.mem) (hp : t.par = s.par) (a : Nat) :
    t.memRead a = s.memRead a := by
  simp [State.memRead, h, hp]

/-- Reset memory is canonical. -/
theorem State.wf_reset (t0 : Nat) (p : Config.Parameters) : (State.resetAt t0 p).mem.wf p = true := rfl

end Sys2Proof.Machine
end

