-- ==== Sys2Proof/Laws/Ops.lean ====
section
/-! SUPPORT. One spec lemma per shared operation: the program counter, registers and flags, the stack, the block loops,
key scanning and fetch. -/

namespace Sys2Proof.Machine

/-! ## The program counter (R13) -/

theorem pcAfter_le (s : State) (t : Nat) : s.pcAfter t ≤ 0xFFF := by
  have hpos := s.par.pcWrapMod.property.1
  have hle := s.par.pcWrapMod.property.2
  unfold State.pcAfter
  split
  · assumption
  · have := Nat.mod_lt t hpos
    omega

@[simp] theorem pcnorm_toNat (s : State) (t : Nat) : (pcnorm s.par.pcWrapMod t).toNat = s.pcAfter t := by
  have h := pcAfter_le s t
  show (BitVec.ofNat 16 (s.pcAfter t)).toNat = _
  rw [BitVec.toNat_ofNat, Nat.mod_eq_of_lt (by omega)]

theorem pcAfter_of_le (s : State) {t : Nat} (h : t ≤ 0xFFF) : s.pcAfter t = t := if_pos h

/-- The reduction depends on the parameters alone. -/
theorem pcAfter_congr {s t : State} (h : t.par = s.par) (n : Nat) : t.pcAfter n = s.pcAfter n := by
  unfold State.pcAfter
  rw [h]

/-! ## Registers and flags (R10, R11, R122) -/

theorem setV_get_same (s : State) (x : Reg) (b : Byte) : (s.setV x b).v[x] = b := by
  simp

theorem setV_get_other (s : State) {x j : Reg} (b : Byte) (h : j ≠ x) : (s.setV x b).v[j] = s.v[j] := by
  have : x.val ≠ j.val := fun e => h (Fin.ext e.symm)
  simp [Vector.getElem_set_ne, this]

/-- VF is written last: it holds the flag, whatever the destination (R122). -/
theorem setVFlag_get_vf (s : State) (x : Reg) (b : Byte) (c : Bool) : (s.setVFlag x b c).v[(15 : Reg)] = flagByte c := by
  simp

theorem setVFlag_get_dest (s : State) {x : Reg} (b : Byte) (c : Bool) (h : x ≠ 15) : (s.setVFlag x b c).v[x] = b := by
  have : (15 : Nat) ≠ x.val := fun e => h (Fin.ext e.symm)
  simp [Vector.getElem_set_ne, this]

theorem setVFlag_get_other (s : State) {x j : Reg} (b : Byte) (c : Bool) (h : j ≠ x) (h' : j ≠ 15) :
    (s.setVFlag x b c).v[j] = s.v[j] := by
  have h1 : x.val ≠ j.val := fun e => h (Fin.ext e.symm)
  have h2 : (15 : Nat) ≠ j.val := fun e => h' (Fin.ext e.symm)
  simp [Vector.getElem_set_ne, h1, h2]

theorem flagByte_eq_one (c : Bool) : flagByte c = 0x01#8 ↔ c = true := by cases c <;> simp [flagByte]

theorem flagByte_eq_zero (c : Bool) : flagByte c = 0x00#8 ↔ c = false := by cases c <;> simp [flagByte]

theorem flagByte_decide_toNat (p : Prop) [Decidable p] : (flagByte (decide p)).toNat = flagNat p := by
  by_cases h : p <;> simp [flagByte, flagNat, h]

/-! ## The call stack (R16, R17) -/

theorem highByte_toNat (a : Word) : (highByte a).toNat = a.toNat / 256 := by
  have := a.isLt
  simp only [highByte, BitVec.extractLsb'_toNat, Nat.shiftRight_eq_div_pow]
  omega

theorem lowByte_toNat (a : Word) : (lowByte a).toNat = a.toNat % 256 := by simp [lowByte, BitVec.extractLsb'_toNat]

/-- The bytes of the stack after a push with room: the two pushed, and the others as they were (R17). -/
theorem push16_get (s : State) (a : Word) (h : s.sp + 2 ≤ s.stk.length) (j : Nat) :
    (s.push16 a).stk[j]? =
      if j = s.sp then some (highByte a) else if j = s.sp + 1 then some (lowByte a) else s.stk[j]? := by
  simp only [State.push16_stk, List.getElem?_set, List.length_set]
  by_cases h1 : j = s.sp + 1
  · have h2 : ¬ j = s.sp := by omega
    simp only [h1, if_true, if_neg (show ¬ s.sp + 1 = s.sp by omega)]
    rw [if_pos (by omega)]
  · rw [if_neg (fun e => h1 e.symm), if_neg h1]
    by_cases h2 : j = s.sp
    · rw [if_pos h2.symm, if_pos h2, if_pos (by omega)]
    · rw [if_neg (fun e => h2 e.symm), if_neg h2]

@[simp] theorem push16_stk_length (s : State) (a : Word) : (s.push16 a).stk.length = s.stk.length := by simp

/-- The popped address as a number (R17). -/
theorem top16_toNat (s : State) : s.top16.toNat = poppedAddress s := wordOfBytes_toNat _ _

theorem stackHasRoom_iff (s : State) : s.stackHasRoom = true ↔ s.sp + 2 ≤ 2 * s.par.stackLevels := by
  simp [State.stackHasRoom]

theorem stackHasTop_iff (s : State) : s.stackHasTop = true ↔ 2 ≤ s.sp := by simp [State.stackHasTop]

/-! ## Fetch (R42) -/

theorem fetch_eq (s : State) : s.fetch = wordOfBytes (s.memRead s.pc.toNat) (s.memRead (s.pc.toNat + 1)) := rfl

/-- Fetching depends on `PC`, memory and the parameters alone. -/
theorem fetch_congr {s t : State} (hp : t.pc = s.pc) (hm : t.mem = s.mem) (hq : t.par = s.par) :
    t.fetch = s.fetch := by
  simp [fetch_eq, hp, State.memRead_congr hm hq]

/-! ## The block loops (R144, R145) -/

theorem storeRegs_rest (s : State) (k : Nat) :
    storeRegs s k = { s with mem := (storeRegs s k).mem } := by
  induction k with
  | zero => rfl
  | succ k ih =>
    simp only [storeRegs, State.memWrite]
    rw [ih]

@[simp] theorem storeRegs_v (s : State) (k : Nat) : (storeRegs s k).v = s.v := by rw [storeRegs_rest]

@[simp] theorem storeRegs_i (s : State) (k : Nat) : (storeRegs s k).i = s.i := by rw [storeRegs_rest]

@[simp] theorem storeRegs_pc (s : State) (k : Nat) : (storeRegs s k).pc = s.pc := by rw [storeRegs_rest]

@[simp] theorem storeRegs_stk (s : State) (k : Nat) : (storeRegs s k).stk = s.stk := by rw [storeRegs_rest]

@[simp] theorem storeRegs_sp (s : State) (k : Nat) : (storeRegs s k).sp = s.sp := by rw [storeRegs_rest]

@[simp] theorem storeRegs_dt (s : State) (k : Nat) : (storeRegs s k).dt = s.dt := by rw [storeRegs_rest]

@[simp] theorem storeRegs_st (s : State) (k : Nat) : (storeRegs s k).st = s.st := by rw [storeRegs_rest]

@[simp] theorem storeRegs_dtLast (s : State) (k : Nat) : (storeRegs s k).dtLast = s.dtLast := by rw [storeRegs_rest]

@[simp] theorem storeRegs_stLast (s : State) (k : Nat) : (storeRegs s k).stLast = s.stLast := by rw [storeRegs_rest]

@[simp] theorem storeRegs_fb (s : State) (k : Nat) : (storeRegs s k).fb = s.fb := by rw [storeRegs_rest]

@[simp] theorem storeRegs_dirty (s : State) (k : Nat) : (storeRegs s k).dirty = s.dirty := by rw [storeRegs_rest]

@[simp] theorem storeRegs_keys (s : State) (k : Nat) : (storeRegs s k).keys = s.keys := by rw [storeRegs_rest]

@[simp] theorem storeRegs_fault (s : State) (k : Nat) : (storeRegs s k).fault = s.fault := by rw [storeRegs_rest]

@[simp] theorem storeRegs_draws (s : State) (k : Nat) : (storeRegs s k).draws = s.draws := by rw [storeRegs_rest]

@[simp] theorem storeRegs_agenda (s : State) (k : Nat) : (storeRegs s k).agenda = s.agenda := by rw [storeRegs_rest]

@[simp] theorem storeRegs_par (s : State) (k : Nat) : (storeRegs s k).par = s.par := by rw [storeRegs_rest]

/-- An address no store of the loop reaches reads as before. -/
theorem memRead_storeRegs_other (s : State) (k a : Nat) (h : ∀ j, j < k → reduceAddr (s.indexed j) ≠ reduceAddr a) :
    (storeRegs s k).memRead a = s.memRead a := by
  induction k with
  | zero => rfl
  | succ k ih =>
    rw [storeRegs, State.memRead_memWrite_other _ _ (h k (by omega)).symm]
    exact ih fun j hj => h j (by omega)

/-- At most 4096 consecutive addresses are pairwise distinct after the reduction (R44). -/
theorem indexed_injective (s : State) {j k : Nat} (h : reduceAddr (s.indexed j) = reduceAddr (s.indexed k))
    (hj : j < 4096) (hk : k < 4096) : j = k := by
  unfold reduceAddr State.indexed Config.memSize at h
  omega

/-- Each register of the block stands at its own address (R144). -/
theorem memRead_storeRegs (s : State) {j k : Nat} (hj : j < k) (hk : k ≤ 16) :
    (storeRegs s k).memRead (s.indexed j) = s.v[j]'(by omega) := by
  induction k with
  | zero => omega
  | succ k ih =>
    rw [storeRegs]
    by_cases h : j = k
    · subst h
      rw [State.memRead_memWrite_same _ _ rfl]
      simp [Vector.getElem?_eq_getElem (show j < 16 by omega)]
    · rw [State.memRead_memWrite_other]
      · exact ih (by omega) (by omega)
      · exact fun e => h (indexed_injective s e (by omega) (by omega))

/-- The stores keep the canonical form. -/
theorem wf_storeRegs (s : State) (k : Nat) (h : s.mem.wf s.par = true) : (storeRegs s k).mem.wf s.par = true := by
  induction k with
  | zero => exact h
  | succ k ih =>
    rw [← storeRegs_par s k] at ih ⊢
    exact State.wf_memWrite _ _ ih

/-- The registers after the loads (R145). -/
theorem loadRegs_get (s : State) (k : Nat) (j : Reg) :
    (loadRegs s k)[j] = if j.val < k then s.memRead (s.indexed j.val) else s.v[j] := by
  induction k with
  | zero => simp [loadRegs]
  | succ k ih =>
    simp only [loadRegs, Fin.getElem_fin, Vector.getElem_setIfInBounds] at ih ⊢
    by_cases h : k = j.val
    · subst h
      simp
    · rw [if_neg h, ih]
      have : j.val < k + 1 ↔ j.val < k := by omega
      simp only [this]

/-! ## Keys (R26, R182) -/

/-- The scan in index order finds the least pressed key. -/
theorem lowestKey_some (s : State) (k : Nat) (h : s.lowestKey = some k) :
    k < 16 ∧ s.keys.getLsbD k = true ∧ ∀ j, j < k → s.keys.getLsbD j = false := by
  unfold State.lowestKey State.keyPressed at h
  rw [List.find?_range_eq_some] at h
  exact ⟨List.mem_range.1 h.2.1, h.1, fun j hj => by simpa using h.2.2 j hj⟩

/-- The scan finds nothing exactly when `KEYS` = 0. -/
theorem lowestKey_none (s : State) : s.lowestKey = none ↔ s.keys = 0x0000#16 := by
  unfold State.lowestKey State.keyPressed
  rw [List.find?_eq_none]
  constructor
  · intro h
    apply BitVec.eq_of_getLsbD_eq
    intro k hk
    simpa using h k (List.mem_range.2 hk)
  · intro h k _
    simp [h]

end Sys2Proof.Machine
end

