-- ==== Sys2Proof/Laws/Agents.lean ====
section
/-! SUPPORT. The operations of the other agents: what each can answer. -/

namespace Sys2Proof.Machine

theorem doLoad_cases (addr : Nat) (b : Byte) (s : State) :
    (0x200 ≤ addr ∧ addr ≤ 0xFFF ∧ doLoad addr b s = .next (s.memWrite addr b)) ∨
      (¬ (0x200 ≤ addr ∧ addr ≤ 0xFFF) ∧ doLoad addr b s = .fault (.loadAddress addr)) := by
  unfold doLoad loadable Config.progBase Config.memSize
  by_cases h : 0x200 ≤ addr ∧ addr < 4096
  · exact Or.inl ⟨h.1, by omega, by simp [h]⟩
  · exact Or.inr ⟨by omega, by simp only [h, decide_false]; rfl⟩

theorem windowClosed_iff (tick now last : Nat) : windowClosed tick now last = true ↔ last ≤ now ∧ tick ≤ now - last := by
  simp [windowClosed]

/-- "Decrements the counter by 1 (floor at 0)" (R220). -/
theorem countDown_toNat (c : Byte) : (countDown c).toNat = c.toNat - 1 := by
  have := c.isLt
  unfold countDown
  split
  · rw [BitVec.toNat_sub]
    simp
    omega
  · omega

/-- What a timer update does to one timer (R220). -/
theorem tickTimer_cases (tick now : Nat) (c : Byte) (last : Nat) :
    ((last ≤ now ∧ tick ≤ now - last) ∧ tickTimer tick now (c, last) = (countDown c, now)) ∨
      (¬ (last ≤ now ∧ tick ≤ now - last) ∧ tickTimer tick now (c, last) = (c, last)) := by
  unfold tickTimer
  by_cases h : last ≤ now ∧ tick ≤ now - last
  · exact Or.inl ⟨h, if_pos ((windowClosed_iff ..).2 h)⟩
  · exact Or.inr ⟨h, if_neg fun e => h ((windowClosed_iff ..).1 e)⟩

end Sys2Proof.Machine
end

