-- ==== Sys2Proof/Laws/Display.lean ====
section
/-! SUPPORT. The framebuffer: reading a pixel after writing one, and what drawing a sprite does to every pixel and to
the collision flag (R161, R162). -/

namespace Sys2Proof.Machine

theorem columnBit_getMsbD {c d : Nat} (hc : c < 64) (hd : d < 64) : (columnBit c).getMsbD d = decide (d = c) := by
  unfold columnBit
  rw [BitVec.getMsbD_eq_getLsbD, BitVec.getLsbD_shiftLeft]
  simp only [BitVec.getLsbD_one]
  by_cases h : d = c
  · subst h
    simp [hd]
    omega
  · simp [h, hd]
    omega

/-- Reading a pixel after writing one (R24). -/
theorem pixel_setPixel (fb : Framebuffer) {r c r' c' : Nat} (b : Bool) (hr : r < 32) (hc : c < 64) (hc' : c' < 64) :
    (fb.setPixel r c b).pixel r' c' = if r' = r ∧ c' = c then b else fb.pixel r' c' := by
  unfold Framebuffer.setPixel Framebuffer.pixel
  by_cases h : r' = r
  · subst h
    cases b
    · by_cases h' : c' = c <;> simp [hr, hc, hc', columnBit_getMsbD, h']
    · by_cases h' : c' = c <;> simp [hr, hc, hc', columnBit_getMsbD, h']
  · have : r ≠ r' := fun e => h e.symm
    simp [h, this]

/-- A framebuffer is its pixels. -/
theorem framebuffer_ext {f g : Framebuffer} (h : ∀ r c, r < 32 → c < 64 → f.pixel r c = g.pixel r c) : f = g := by
  apply Vector.ext
  intro r hr
  apply BitVec.eq_of_getMsbD_eq
  intro c hc
  simpa [Framebuffer.pixel, hr] using h r c hr hc

@[simp] theorem pixel_blank (r c : Nat) : Framebuffer.blank.pixel r c = false := by
  unfold Framebuffer.blank Framebuffer.pixel
  by_cases h : r < 32 <;> simp [h]

/-- One sprite pixel: the pixel is toggled, the others stay (R162). -/
theorem pixel_flip (k : Canvas) {r c r' c' : Nat} (hr : r < 32) (hc : c < 64) (hc' : c' < 64) :
    (k.flip r c).fb.pixel r' c' = if r' = r ∧ c' = c then !k.fb.pixel r c else k.fb.pixel r' c' := by
  unfold Canvas.flip
  cases h : k.fb.pixel r c <;> simp [pixel_setPixel, hr, hc, hc']

/-- One sprite pixel collides exactly when it was lit (R162). -/
theorem collision_flip (k : Canvas) (r c : Nat) : (k.flip r c).collision = (k.collision || k.fb.pixel r c) := by
  unfold Canvas.flip
  cases h : k.fb.pixel r c <;> simp

/-- Column `c` lies under one of the first `m` pixels, at value 1, of a sprite row at column `x0` (R161). -/
def RowBit (b : Byte) (x0 m c : Nat) : Prop := x0 ≤ c ∧ c < x0 + m ∧ b.getLsbD (7 - (c - x0)) = true

theorem rowBit_succ (b : Byte) (x0 m c : Nat) :
    RowBit b x0 (m + 1) c ↔ RowBit b x0 m c ∨ (c = x0 + m ∧ b.getLsbD (7 - m) = true) := by
  unfold RowBit
  by_cases h : c = x0 + m
  · subst h
    have e : x0 + m - x0 = m := by omega
    rw [e]
    constructor
    · exact fun h => Or.inr ⟨rfl, h.2.2⟩
    · rintro (h | h)
      · omega
      · exact ⟨by omega, by omega, h.2⟩
  · constructor
    · exact fun h' => Or.inl ⟨h'.1, by omega, h'.2.2⟩
    · rintro (h' | h')
      · exact ⟨h'.1, by omega, h'.2.2⟩
      · exact absurd h'.1 h

theorem drawByte_succ (k : Canvas) (r x0 : Nat) (b : Byte) (m : Nat) :
    k.drawByte r x0 b (m + 1) =
      if x0 + m < 64 ∧ b.getLsbD (7 - m) = true then (k.drawByte r x0 b m).flip r (x0 + m)
      else k.drawByte r x0 b m := by
  show (if (decide (x0 + m < 64) && b.getLsbD (7 - m)) = true then _ else _) = _
  by_cases h : x0 + m < 64 <;> simp [h]

/-- A sprite row toggles exactly the unclipped pixels under its 1-bits, and collides exactly when one was lit. -/
theorem drawByte_spec (k : Canvas) {r : Nat} (x0 : Nat) (b : Byte) (hr : r < 32) (m : Nat) :
    (∀ r' c, c < 64 → (r' = r ∧ RowBit b x0 m c) → (k.drawByte r x0 b m).fb.pixel r' c = !k.fb.pixel r' c) ∧
    (∀ r' c, c < 64 → ¬ (r' = r ∧ RowBit b x0 m c) → (k.drawByte r x0 b m).fb.pixel r' c = k.fb.pixel r' c) ∧
    ((k.drawByte r x0 b m).collision = true ↔
      k.collision = true ∨ ∃ c, c < 64 ∧ RowBit b x0 m c ∧ k.fb.pixel r c = true) := by
  induction m with
  | zero =>
    have hno : ∀ c, ¬ RowBit b x0 0 c := fun c h => by unfold RowBit at h; omega
    refine ⟨fun r' c _ h => absurd h.2 (hno c), fun _ _ _ _ => rfl, ?_⟩
    simp [Canvas.drawByte, hno]
  | succ m ih =>
    obtain ⟨ih1, ih2, ih3⟩ := ih
    have hnew : ¬ RowBit b x0 m (x0 + m) := fun h => by unfold RowBit at h; omega
    rw [drawByte_succ]
    by_cases hd : x0 + m < 64 ∧ b.getLsbD (7 - m) = true
    · rw [if_pos hd]
      have hold := ih2 r (x0 + m) hd.1 (fun h => hnew h.2)
      refine ⟨?_, ?_, ?_⟩
      · rintro r' c hc ⟨rfl, h⟩
        rw [pixel_flip _ hr hd.1 hc]
        rcases (rowBit_succ ..).1 h with h | ⟨rfl, _⟩
        · have : c ≠ x0 + m := fun e => hnew (e ▸ h)
          simp only [this, and_false, if_false]
          exact ih1 r' c hc ⟨rfl, h⟩
        · simp [hold]
      · intro r' c hc h
        rw [pixel_flip _ hr hd.1 hc]
        have hne : ¬ (r' = r ∧ c = x0 + m) := fun e => h ⟨e.1, (rowBit_succ ..).2 (Or.inr ⟨e.2, hd.2⟩)⟩
        rw [if_neg hne]
        exact ih2 r' c hc fun e => h ⟨e.1, (rowBit_succ ..).2 (Or.inl e.2)⟩
      · rw [collision_flip, Bool.or_eq_true, hold, ih3]
        constructor
        · rintro ((h | ⟨c, hc, h, hp⟩) | h)
          · exact Or.inl h
          · exact Or.inr ⟨c, hc, (rowBit_succ ..).2 (Or.inl h), hp⟩
          · exact Or.inr ⟨x0 + m, hd.1, (rowBit_succ ..).2 (Or.inr ⟨rfl, hd.2⟩), h⟩
        · rintro (h | ⟨c, hc, h, hp⟩)
          · exact Or.inl (Or.inl h)
          · rcases (rowBit_succ ..).1 h with h | ⟨rfl, _⟩
            · exact Or.inl (Or.inr ⟨c, hc, h, hp⟩)
            · exact Or.inr hp
    · rw [if_neg hd]
      have hsame : ∀ c, c < 64 → (RowBit b x0 (m + 1) c ↔ RowBit b x0 m c) := by
        intro c hc
        rw [rowBit_succ]
        constructor
        · rintro (h | ⟨rfl, h⟩)
          · exact h
          · exact absurd ⟨hc, h⟩ hd
        · exact Or.inl
      refine ⟨?_, ?_, ?_⟩
      · intro r' c hc h
        exact ih1 r' c hc ⟨h.1, (hsame c hc).1 h.2⟩
      · intro r' c hc h
        exact ih2 r' c hc fun e => h ⟨e.1, (hsame c hc).2 e.2⟩
      · rw [ih3]
        constructor
        · rintro (h | ⟨c, hc, h, hp⟩)
          · exact Or.inl h
          · exact Or.inr ⟨c, hc, (hsame c hc).2 h, hp⟩
        · rintro (h | ⟨c, hc, h, hp⟩)
          · exact Or.inl h
          · exact Or.inr ⟨c, hc, (hsame c hc).1 h, hp⟩

theorem spriteBit_succ (s : State) (x0 y0 n r c : Nat) :
    SpriteBit s x0 y0 (n + 1) r c ↔
      SpriteBit s x0 y0 n r c ∨ (r = y0 + n ∧ RowBit (s.memRead (s.indexed n)) x0 8 c) := by
  unfold SpriteBit RowBit State.indexed
  by_cases h : r = y0 + n
  · subst h
    have e : y0 + n - y0 = n := by omega
    rw [e]
    constructor
    · exact fun h => Or.inr ⟨rfl, h.2.2⟩
    · rintro (h | h)
      · omega
      · exact ⟨by omega, by omega, h.2⟩
  · constructor
    · exact fun h' => Or.inl ⟨h'.1, by omega, h'.2.2⟩
    · rintro (h' | h')
      · exact ⟨h'.1, by omega, h'.2.2⟩
      · exact absurd h'.1 h

/-- Drawing the first `n` rows toggles exactly the pixels of the screen under the sprite's 1-bits, and collides exactly
when one of them was lit. -/
theorem drawRows_spec (s : State) (x0 y0 n : Nat) :
    (∀ r c, r < 32 → c < 64 → SpriteBit s x0 y0 n r c → (drawRows s x0 y0 n).fb.pixel r c = !s.fb.pixel r c) ∧
    (∀ r c, r < 32 → c < 64 → ¬ SpriteBit s x0 y0 n r c → (drawRows s x0 y0 n).fb.pixel r c = s.fb.pixel r c) ∧
    ((drawRows s x0 y0 n).collision = true ↔
      ∃ r c, r < 32 ∧ c < 64 ∧ s.fb.pixel r c = true ∧ SpriteBit s x0 y0 n r c) := by
  induction n with
  | zero =>
    have hno : ∀ r c, ¬ SpriteBit s x0 y0 0 r c := fun r c h => by unfold SpriteBit at h; omega
    refine ⟨fun r c _ _ h => absurd h (hno r c), fun _ _ _ _ _ => rfl, ?_⟩
    simp [drawRows, hno]
  | succ n ih =>
    obtain ⟨ih1, ih2, ih3⟩ := ih
    have hnew : ∀ c, ¬ SpriteBit s x0 y0 n (y0 + n) c := fun c h => by unfold SpriteBit at h; omega
    have hs : drawRows s x0 y0 (n + 1) = if y0 + n < 32 then
        (drawRows s x0 y0 n).drawByte (y0 + n) x0 (s.memRead (s.indexed n)) 8 else drawRows s x0 y0 n := rfl
    rw [hs]
    by_cases hd : y0 + n < 32
    · rw [if_pos hd]
      obtain ⟨d1, d2, d3⟩ := drawByte_spec (drawRows s x0 y0 n) x0 (s.memRead (s.indexed n)) hd 8
      refine ⟨?_, ?_, ?_⟩
      · intro r c hr hc h
        rcases (spriteBit_succ ..).1 h with h | ⟨rfl, hb⟩
        · have hne : ¬ (r = y0 + n ∧ RowBit (s.memRead (s.indexed n)) x0 8 c) := fun e => hnew c (e.1 ▸ h)
          rw [d2 r c hc hne]
          exact ih1 r c hr hc h
        · rw [d1 _ c hc ⟨rfl, hb⟩, ih2 _ c hr hc (hnew c)]
      · intro r c hr hc h
        have h1 : ¬ SpriteBit s x0 y0 n r c := fun e => h ((spriteBit_succ ..).2 (Or.inl e))
        have h2 : ¬ (r = y0 + n ∧ RowBit (s.memRead (s.indexed n)) x0 8 c) := fun e =>
          h ((spriteBit_succ ..).2 (Or.inr e))
        rw [d2 r c hc h2, ih2 r c hr hc h1]
      · rw [d3, ih3]
        constructor
        · rintro (⟨r, c, hr, hc, hp, h⟩ | ⟨c, hc, h, hp⟩)
          · exact ⟨r, c, hr, hc, hp, (spriteBit_succ ..).2 (Or.inl h)⟩
          · exact ⟨y0 + n, c, hd, hc, ih2 _ c hd hc (hnew c) ▸ hp, (spriteBit_succ ..).2 (Or.inr ⟨rfl, h⟩)⟩
        · rintro ⟨r, c, hr, hc, hp, h⟩
          rcases (spriteBit_succ ..).1 h with h | ⟨rfl, hb⟩
          · exact Or.inl ⟨r, c, hr, hc, hp, h⟩
          · exact Or.inr ⟨c, hc, hb, (ih2 _ c hd hc (hnew c)).symm ▸ hp⟩
    · rw [if_neg hd]
      have hsame : ∀ r c, r < 32 → (SpriteBit s x0 y0 (n + 1) r c ↔ SpriteBit s x0 y0 n r c) := by
        intro r c hr
        rw [spriteBit_succ]
        constructor
        · rintro (h | ⟨rfl, _⟩)
          · exact h
          · exact absurd hr hd
        · exact Or.inl
      refine ⟨fun r c hr hc h => ih1 r c hr hc ((hsame r c hr).1 h),
        fun r c hr hc h => ih2 r c hr hc fun e => h ((hsame r c hr).2 e), ?_⟩
      rw [ih3]
      constructor
      · rintro ⟨r, c, hr, hc, hp, h⟩
        exact ⟨r, c, hr, hc, hp, (hsame r c hr).2 h⟩
      · rintro ⟨r, c, hr, hc, hp, h⟩
        exact ⟨r, c, hr, hc, hp, (hsame r c hr).1 h⟩

end Sys2Proof.Machine
end

