-- ==== Sys2Proof/Laws/Effects.lean ====
section
/-! SUPPORT. The shapes of a result (`RegEffect`, `FlagEffect`, `SkipEffect`, `IndexEffect`) shown once of the shared
operations that produce them, the frames that follow from which fields a record update names, and that an instruction
neither reads nor writes the agenda. -/

namespace Sys2Proof.Machine

/-! ## Frames from the fields an update names -/

theorem sameButRegsAndPc_of_eq {s t : State} (h : t = { s with v := t.v, pc := t.pc }) : SameButRegsAndPc s t := by
  rw [h]
  exact ⟨rfl, ⟨rfl, rfl⟩, fun _ => rfl, ⟨rfl, rfl, rfl, rfl⟩, ⟨rfl, rfl⟩, rfl, rfl, rfl, rfl, rfl⟩

theorem sameButPc_of_eq {s t : State} (h : t = { s with pc := t.pc }) : SameButPc s t := by
  rw [h]
  exact ⟨fun _ => rfl, sameButRegsAndPc_of_eq rfl⟩

theorem sameButMemoryAndPc_of_eq {s t : State} (h : t = { s with mem := t.mem, pc := t.pc }) :
    SameButMemoryAndPc s t := by
  rw [h]
  exact ⟨fun _ => rfl, rfl, ⟨rfl, rfl⟩, ⟨rfl, rfl, rfl, rfl⟩, ⟨rfl, rfl⟩, rfl, rfl, rfl, rfl, rfl⟩

/-! ## The shapes of a result -/

/-- A register write followed by the default advance. -/
theorem regEffect_setV (s : State) (x : Reg) (b : Byte) : RegEffect s (s.setV x b).advance x b.toNat :=
  ⟨congrArg _ (setV_get_same s x b), fun _ h => setV_get_other s b h, by simp, sameButRegsAndPc_of_eq rfl⟩

/-- A register and flag write followed by the default advance (R122). -/
theorem flagEffect_setVFlag (s : State) (x : Reg) (b : Byte) (c : Bool) :
    FlagEffect s (s.setVFlag x b c).advance x b.toNat (flagByte c).toNat :=
  ⟨fun h => congrArg _ (setVFlag_get_dest s b c h), congrArg _ (setVFlag_get_vf s x b c),
    fun _ h => setVFlag_get_other s b c (fun e => h (Or.inl e)) (fun e => h (Or.inr e)), by simp,
    sameButRegsAndPc_of_eq rfl⟩

/-- A conditional skip (R14). -/
theorem skipEffect_skipIf (s : State) (c : Bool) (p : Prop) (hp : c = true ↔ p) : SkipEffect s (s.skipIf c) p := by
  refine ⟨fun h => by simp [hp.2 h], fun h => ?_, sameButPc_of_eq (by cases c <;> rfl)⟩
  have : c = false := by cases hc : c <;> simp_all
  simp [this]

/-- A write of `I` followed by the default advance (R15). -/
theorem indexEffect_setI (s : State) (w : Word) : IndexEffect s (s.setI w).advance w.toNat :=
  ⟨rfl, by simp, fun _ => rfl, ⟨rfl, rfl⟩, fun _ => rfl, ⟨rfl, rfl, rfl, rfl⟩, ⟨rfl, rfl⟩, rfl, rfl, rfl, rfl, rfl⟩

/-! ## Loading an image (R243) -/

/-- `loadBytes` over a range inside the program area: the image stands there, and nothing else changed. -/
theorem loadBytes_spec (image : List Byte) : ∀ (base : Nat) (s : State), 0x200 ≤ base → base + image.length ≤ 4096 →
    ∃ t, loadBytes base image s = .next t ∧
      (∀ k (h : k < image.length), t.memRead (base + k) = image[k]) ∧
      (∀ a, a < 4096 → ¬ (base ≤ a ∧ a < base + image.length) → t.memRead a = s.memRead a) ∧
      t = { s with mem := t.mem } := by
  induction image with
  | nil => intro base s _ _; exact ⟨s, rfl, fun k h => absurd h (by simp), fun _ _ _ => rfl, rfl⟩
  | cons b bs ih =>
    intro base s h1 h2
    simp only [List.length_cons] at h2
    rcases doLoad_cases base b s with ⟨-, -, e⟩ | ⟨h', -⟩
    · obtain ⟨t, ht, a1, a2, a3⟩ := ih (base + 1) (s.memWrite base b) (by omega) (by omega)
      refine ⟨t, by simp [loadBytes, e, ht], ?_, ?_, ?_⟩
      · intro k hk
        cases k with
        | zero =>
          rw [a2 _ (by omega) (by omega)]
          exact State.memRead_memWrite_same _ _ rfl
        | succ k =>
          have := a1 k (by simpa using hk)
          rw [show base + (k + 1) = base + 1 + k by omega]
          simpa using this
      · intro a ha hn
        simp only [List.length_cons] at hn
        rw [a2 a ha (by omega)]
        refine State.memRead_memWrite_other _ _ ?_
        rw [reduceAddr_of_lt ha, reduceAddr_of_lt (by omega)]
        omega
      · rw [a3]; rfl
    · exact absurd ⟨h1, by omega⟩ h'

/-! ## The agenda is not the instruction's (R6; log 2) -/

/-- A result with the agenda of its next state replaced. -/
def Result.withAgenda (l : List Operation) : Result → Result
  | .next s => .next { s with agenda := l }
  | .fault f => .fault f
  | .refused r => .refused r

theorem skipIf_agenda (s : State) (l : List Operation) (c : Bool) :
    State.skipIf { s with agenda := l } c = { s.skipIf c with agenda := l } := by
  cases c <;> rfl

theorem storeRegs_agenda_eq (s : State) (l : List Operation) (k : Nat) :
    storeRegs { s with agenda := l } k = { storeRegs s k with agenda := l } := by
  induction k with
  | zero => rfl
  | succ k ih => simp only [storeRegs]; rw [ih]; rfl

theorem loadRegs_agenda_eq (s : State) (l : List Operation) (k : Nat) :
    loadRegs { s with agenda := l } k = loadRegs s k := by
  induction k with
  | zero => rfl
  | succ k ih => simp only [loadRegs]; rw [ih]; rfl

theorem drawRows_agenda_eq (s : State) (l : List Operation) (a b k : Nat) :
    drawRows { s with agenda := l } a b k = drawRows s a b k := by
  induction k with
  | zero => rfl
  | succ k ih => simp only [drawRows]; rw [ih]; rfl

/-- An instruction does the same whatever the agenda, and leaves it as it is. -/
theorem exec_withAgenda (i : Instr) (s : State) (l : List Operation) :
    exec i { s with agenda := l } = Result.withAgenda l (exec i s) := by
  cases i
  case ret =>
    show execRet _ = Result.withAgenda l (execRet s)
    unfold execRet
    have : State.stackHasTop { s with agenda := l } = s.stackHasTop := rfl
    rw [this]; cases s.stackHasTop <;> rfl
  case call n =>
    show execCall n _ = Result.withAgenda l (execCall n s)
    unfold execCall
    have : State.stackHasRoom { s with agenda := l } = s.stackHasRoom := rfl
    rw [this]; cases s.stackHasRoom <;> rfl
  case wkey x =>
    show execWkey x _ = Result.withAgenda l (execWkey x s)
    unfold execWkey
    have : State.lowestKey { s with agenda := l } = s.lowestKey := rfl
    rw [this]; cases s.lowestKey <;> rfl
  case se x nn => exact congrArg _ (skipIf_agenda _ _ _)
  case sne x nn => exact congrArg _ (skipIf_agenda _ _ _)
  case ser x nn => exact congrArg _ (skipIf_agenda _ _ _)
  case sner x nn => exact congrArg _ (skipIf_agenda _ _ _)
  case skp x => exact congrArg _ (skipIf_agenda _ _ _)
  case sknp x => exact congrArg _ (skipIf_agenda _ _ _)
  case stm x =>
    show execStm x _ = Result.withAgenda l (execStm x s)
    unfold execStm; rw [storeRegs_agenda_eq]; rfl
  case ldm x =>
    show execLdm x _ = Result.withAgenda l (execLdm x s)
    unfold execLdm; rw [loadRegs_agenda_eq]; rfl
  case drw x y n =>
    show execDrw x y n _ = Result.withAgenda l (execDrw x y n s)
    unfold execDrw; rw [drawRows_agenda_eq]; rfl
  all_goals rfl

/-- So does a `Step` of the CPU. -/
theorem cpuStep_withAgenda (s : State) (l : List Operation) :
    cpuStep { s with agenda := l } = Result.withAgenda l (cpuStep s) := by
  unfold cpuStep
  have h1 : State.halted { s with agenda := l } = s.halted := rfl
  have h2 : State.fetch { s with agenda := l } = s.fetch := rfl
  rw [h1, h2]
  split
  · rfl
  · split
    · exact exec_withAgenda _ _ _
    · rfl

/-- So does every operation. -/
theorem perform_withAgenda (o : Operation) (s : State) (l : List Operation) :
    perform o { s with agenda := l } = Result.withAgenda l (perform o s) := by
  cases o with
  | step => exact cpuStep_withAgenda s l
  | load a b =>
    show doLoad a b _ = Result.withAgenda l (doLoad a b s)
    unfold doLoad; split <;> rfl
  | _ => rfl

end Sys2Proof.Machine
end

