-- ==== Sys2Proof/Laws/PerInstr.lean ====
section
/-! SUPPORT. The law made per instruction: its row of the opcode map selects its word, and its assembly line is well
formed (spec/30_encoding.md R66, R70). -/

namespace Sys2Proof

theorem formatNNN_mask (m : Nibble) (a : Addr12) : formatNNN m a &&& 0xF000#16 = m ++ 0#12 := by
  show (m ++ a) &&& (0xF#4 ++ 0x000#12) = m ++ 0#12
  rw [BitVec.and_append]
  congr 1
  · exact BitVec.and_allOnes
  · exact BitVec.and_zero

theorem formatXNN_mask (m : Nibble) (x : Reg) (b : Byte) : formatXNN m x b &&& 0xF000#16 = m ++ 0#4 ++ 0#8 := by
  show ((m ++ regBits x) ++ b) &&& ((0xF#4 ++ 0x0#4) ++ 0x00#8) = (m ++ 0#4) ++ 0#8
  rw [BitVec.and_append, BitVec.and_append]
  congr 1
  · congr 1
    · exact BitVec.and_allOnes
    · exact BitVec.and_zero
  · exact BitVec.and_zero

theorem formatX_mask (m : Nibble) (x : Reg) (b : Byte) : formatX m x b &&& 0xF0FF#16 = m ++ 0#4 ++ b := by
  show ((m ++ regBits x) ++ b) &&& ((0xF#4 ++ 0x0#4) ++ 0xFF#8) = (m ++ 0#4) ++ b
  rw [BitVec.and_append, BitVec.and_append]
  congr 1
  · congr 1
    · exact BitVec.and_allOnes
    · exact BitVec.and_zero
  · exact BitVec.and_allOnes

theorem formatXYN_mask (m : Nibble) (x y : Reg) (n : Nibble) : formatXYN m x y n &&& 0xF00F#16 =
    m ++ 0#4 ++ 0#4 ++ n := by
  show (((m ++ regBits x) ++ regBits y) ++ n) &&& (((0xF#4 ++ 0x0#4) ++ 0x0#4) ++ 0xF#4) = ((m ++ 0#4) ++ 0#4) ++ n
  rw [BitVec.and_append, BitVec.and_append, BitVec.and_append]
  congr 1
  · congr 1
    · congr 1
      · exact BitVec.and_allOnes
      · exact BitVec.and_zero
    · exact BitVec.and_zero
  · exact BitVec.and_allOnes

theorem formatXYN_majorMask (m : Nibble) (x y : Reg) (n : Nibble) : formatXYN m x y n &&& 0xF000#16 =
    m ++ 0#4 ++ 0#4 ++ 0#4 := by
  show (((m ++ regBits x) ++ regBits y) ++ n) &&& (((0xF#4 ++ 0x0#4) ++ 0x0#4) ++ 0x0#4) = ((m ++ 0#4) ++ 0#4) ++ 0#4
  rw [BitVec.and_append, BitVec.and_append, BitVec.and_append]
  congr 1
  · congr 1
    · congr 1
      · exact BitVec.and_allOnes
      · exact BitVec.and_zero
    · exact BitVec.and_zero
  · exact BitVec.and_zero

/-- A 4-bit number fits a register field. -/
theorem reg_fits (x : Reg) : Field.x.fits x.val = true := decide_eq_true x.isLt

theorem regY_fits (y : Reg) : Field.y.fits y.val = true := decide_eq_true y.isLt

theorem nibble_fits (n : Nibble) : Field.n.fits n.toNat = true := decide_eq_true n.isLt

theorem byte_fits (b : Byte) : Field.nn.fits b.toNat = true := decide_eq_true b.isLt

theorem addr_fits (a : Addr12) : Field.nnn.fits a.toNat = true := decide_eq_true a.isLt

namespace Laws.TableRow

/-- The instruction's word is selected by its own row, and its operands fit their fields. -/
def Statement (i : Instr) : Prop := i.mnemonic.row.selects (encode i) = true ∧ i.wellFormed = true

theorem cls : Statement .cls := ⟨by decide, by decide⟩

theorem ret : Statement .ret := ⟨by decide, by decide⟩

theorem jp (nnn : Addr12) : Statement (.jp nnn) := by
  refine ⟨beq_iff_eq.2 (formatNNN_mask ..), ?_⟩
  simp [Instr.wellFormed, SourceInstr.wellFormed, Instr.source, Mnemonic.fields, operandsFit, addr_fits]

theorem call (nnn : Addr12) : Statement (.call nnn) := by
  refine ⟨beq_iff_eq.2 (formatNNN_mask ..), ?_⟩
  simp [Instr.wellFormed, SourceInstr.wellFormed, Instr.source, Mnemonic.fields, operandsFit, addr_fits]

theorem se (x : Reg) (nn : Byte) : Statement (.se x nn) := by
  refine ⟨beq_iff_eq.2 (formatXNN_mask ..), ?_⟩
  simp [Instr.wellFormed, SourceInstr.wellFormed, Instr.source, Mnemonic.fields, operandsFit, reg_fits, byte_fits]

theorem sne (x : Reg) (nn : Byte) : Statement (.sne x nn) := by
  refine ⟨beq_iff_eq.2 (formatXNN_mask ..), ?_⟩
  simp [Instr.wellFormed, SourceInstr.wellFormed, Instr.source, Mnemonic.fields, operandsFit, reg_fits, byte_fits]

theorem ser (x : Reg) (y : Reg) : Statement (.ser x y) := by
  refine ⟨beq_iff_eq.2 (formatXYN_mask ..), ?_⟩
  simp [Instr.wellFormed, SourceInstr.wellFormed, Instr.source, Mnemonic.fields, operandsFit, reg_fits, regY_fits]

theorem sner (x : Reg) (y : Reg) : Statement (.sner x y) := by
  refine ⟨beq_iff_eq.2 (formatXYN_mask ..), ?_⟩
  simp [Instr.wellFormed, SourceInstr.wellFormed, Instr.source, Mnemonic.fields, operandsFit, reg_fits, regY_fits]

theorem ld (x : Reg) (nn : Byte) : Statement (.ld x nn) := by
  refine ⟨beq_iff_eq.2 (formatXNN_mask ..), ?_⟩
  simp [Instr.wellFormed, SourceInstr.wellFormed, Instr.source, Mnemonic.fields, operandsFit, reg_fits, byte_fits]

theorem addi (x : Reg) (nn : Byte) : Statement (.addi x nn) := by
  refine ⟨beq_iff_eq.2 (formatXNN_mask ..), ?_⟩
  simp [Instr.wellFormed, SourceInstr.wellFormed, Instr.source, Mnemonic.fields, operandsFit, reg_fits, byte_fits]

theorem mov (x : Reg) (y : Reg) : Statement (.mov x y) := by
  refine ⟨beq_iff_eq.2 (formatXYN_mask ..), ?_⟩
  simp [Instr.wellFormed, SourceInstr.wellFormed, Instr.source, Mnemonic.fields, operandsFit, reg_fits, regY_fits]

theorem or (x : Reg) (y : Reg) : Statement (.or x y) := by
  refine ⟨beq_iff_eq.2 (formatXYN_mask ..), ?_⟩
  simp [Instr.wellFormed, SourceInstr.wellFormed, Instr.source, Mnemonic.fields, operandsFit, reg_fits, regY_fits]

theorem and (x : Reg) (y : Reg) : Statement (.and x y) := by
  refine ⟨beq_iff_eq.2 (formatXYN_mask ..), ?_⟩
  simp [Instr.wellFormed, SourceInstr.wellFormed, Instr.source, Mnemonic.fields, operandsFit, reg_fits, regY_fits]

theorem xor (x : Reg) (y : Reg) : Statement (.xor x y) := by
  refine ⟨beq_iff_eq.2 (formatXYN_mask ..), ?_⟩
  simp [Instr.wellFormed, SourceInstr.wellFormed, Instr.source, Mnemonic.fields, operandsFit, reg_fits, regY_fits]

theorem add (x : Reg) (y : Reg) : Statement (.add x y) := by
  refine ⟨beq_iff_eq.2 (formatXYN_mask ..), ?_⟩
  simp [Instr.wellFormed, SourceInstr.wellFormed, Instr.source, Mnemonic.fields, operandsFit, reg_fits, regY_fits]

theorem sub (x : Reg) (y : Reg) : Statement (.sub x y) := by
  refine ⟨beq_iff_eq.2 (formatXYN_mask ..), ?_⟩
  simp [Instr.wellFormed, SourceInstr.wellFormed, Instr.source, Mnemonic.fields, operandsFit, reg_fits, regY_fits]

theorem shr (x : Reg) (y : Reg) : Statement (.shr x y) := by
  refine ⟨beq_iff_eq.2 (formatXYN_mask ..), ?_⟩
  simp [Instr.wellFormed, SourceInstr.wellFormed, Instr.source, Mnemonic.fields, operandsFit, reg_fits, regY_fits]

theorem subn (x : Reg) (y : Reg) : Statement (.subn x y) := by
  refine ⟨beq_iff_eq.2 (formatXYN_mask ..), ?_⟩
  simp [Instr.wellFormed, SourceInstr.wellFormed, Instr.source, Mnemonic.fields, operandsFit, reg_fits, regY_fits]

theorem shl (x : Reg) (y : Reg) : Statement (.shl x y) := by
  refine ⟨beq_iff_eq.2 (formatXYN_mask ..), ?_⟩
  simp [Instr.wellFormed, SourceInstr.wellFormed, Instr.source, Mnemonic.fields, operandsFit, reg_fits, regY_fits]

theorem ldi (nnn : Addr12) : Statement (.ldi nnn) := by
  refine ⟨beq_iff_eq.2 (formatNNN_mask ..), ?_⟩
  simp [Instr.wellFormed, SourceInstr.wellFormed, Instr.source, Mnemonic.fields, operandsFit, addr_fits]

theorem jp0 (nnn : Addr12) : Statement (.jp0 nnn) := by
  refine ⟨beq_iff_eq.2 (formatNNN_mask ..), ?_⟩
  simp [Instr.wellFormed, SourceInstr.wellFormed, Instr.source, Mnemonic.fields, operandsFit, addr_fits]

theorem rnd (x : Reg) (nn : Byte) : Statement (.rnd x nn) := by
  refine ⟨beq_iff_eq.2 (formatXNN_mask ..), ?_⟩
  simp [Instr.wellFormed, SourceInstr.wellFormed, Instr.source, Mnemonic.fields, operandsFit, reg_fits, byte_fits]

theorem drw (x : Reg) (y : Reg) (n : Nibble) : Statement (.drw x y n) := by
  refine ⟨beq_iff_eq.2 (formatXYN_majorMask ..), ?_⟩
  simp [Instr.wellFormed, SourceInstr.wellFormed, Instr.source, Mnemonic.fields, operandsFit, reg_fits, regY_fits, nibble_fits]

theorem skp (x : Reg) : Statement (.skp x) := by
  refine ⟨beq_iff_eq.2 (formatX_mask ..), ?_⟩
  simp [Instr.wellFormed, SourceInstr.wellFormed, Instr.source, Mnemonic.fields, operandsFit, reg_fits]

theorem sknp (x : Reg) : Statement (.sknp x) := by
  refine ⟨beq_iff_eq.2 (formatX_mask ..), ?_⟩
  simp [Instr.wellFormed, SourceInstr.wellFormed, Instr.source, Mnemonic.fields, operandsFit, reg_fits]

theorem lddt (x : Reg) : Statement (.lddt x) := by
  refine ⟨beq_iff_eq.2 (formatX_mask ..), ?_⟩
  simp [Instr.wellFormed, SourceInstr.wellFormed, Instr.source, Mnemonic.fields, operandsFit, reg_fits]

theorem wkey (x : Reg) : Statement (.wkey x) := by
  refine ⟨beq_iff_eq.2 (formatX_mask ..), ?_⟩
  simp [Instr.wellFormed, SourceInstr.wellFormed, Instr.source, Mnemonic.fields, operandsFit, reg_fits]

theorem stdt (x : Reg) : Statement (.stdt x) := by
  refine ⟨beq_iff_eq.2 (formatX_mask ..), ?_⟩
  simp [Instr.wellFormed, SourceInstr.wellFormed, Instr.source, Mnemonic.fields, operandsFit, reg_fits]

theorem stst (x : Reg) : Statement (.stst x) := by
  refine ⟨beq_iff_eq.2 (formatX_mask ..), ?_⟩
  simp [Instr.wellFormed, SourceInstr.wellFormed, Instr.source, Mnemonic.fields, operandsFit, reg_fits]

theorem addix (x : Reg) : Statement (.addix x) := by
  refine ⟨beq_iff_eq.2 (formatX_mask ..), ?_⟩
  simp [Instr.wellFormed, SourceInstr.wellFormed, Instr.source, Mnemonic.fields, operandsFit, reg_fits]

theorem font (x : Reg) : Statement (.font x) := by
  refine ⟨beq_iff_eq.2 (formatX_mask ..), ?_⟩
  simp [Instr.wellFormed, SourceInstr.wellFormed, Instr.source, Mnemonic.fields, operandsFit, reg_fits]

theorem bcd (x : Reg) : Statement (.bcd x) := by
  refine ⟨beq_iff_eq.2 (formatX_mask ..), ?_⟩
  simp [Instr.wellFormed, SourceInstr.wellFormed, Instr.source, Mnemonic.fields, operandsFit, reg_fits]

theorem stm (x : Reg) : Statement (.stm x) := by
  refine ⟨beq_iff_eq.2 (formatX_mask ..), ?_⟩
  simp [Instr.wellFormed, SourceInstr.wellFormed, Instr.source, Mnemonic.fields, operandsFit, reg_fits]

theorem ldm (x : Reg) : Statement (.ldm x) := by
  refine ⟨beq_iff_eq.2 (formatX_mask ..), ?_⟩
  simp [Instr.wellFormed, SourceInstr.wellFormed, Instr.source, Mnemonic.fields, operandsFit, reg_fits]

end Laws.TableRow

end Sys2Proof
end

