-- ==== Sys2Proof/Tests/Slice0.lean ====
section
/-! SUPPORT. Tests of one step each, with the expected results of spec/95_test_vectors.md (the vector's number stands
in each test's comment); the decoding of one word of every constructor, written out from the rows of R66; the
ill-formed assembly lines that `wellFormed` refuses; and a witness for the hypotheses of every statement that has
any. -/

namespace Sys2Proof.Tests

open Sys2Proof Sys2Proof.Machine

set_option maxRecDepth 8000

/-! ## Helpers -/

/-- The start state of 95_test_vectors.md: the reset state, at `pc`, changed by `f`, with the word `op` placed. -/
def start (pc op : Nat) (f : State → State) : State :=
  (f { State.reset with pc := BitVec.ofNat 16 pc }).withFetchWord 16 op

/-- The outcome is a next state with the property `p`. -/
def answers (r : Result) (p : State → Bool) : Bool :=
  match r with
  | .next t => p t
  | _ => false

/-- One step of `start pc op f` answers a next state with the property `p`. -/
def after (pc op : Nat) (f : State → State) (p : State → Bool) : Bool := answers (step (start pc op f)) p

/-- The lit pixels of the rows `r0 .. r0 + rows - 1`, as (row, column). -/
def lit (fb : Framebuffer) (r0 rows : Nat) : List (Nat × Nat) :=
  ((List.range rows).map fun k => ((List.range 64).filter fun c => fb.pixel (r0 + k) c).map fun c => (r0 + k, c)).flatten

/-! ## WellFormed: an ill-formed line for each check (R70, R63) -/

theorem test_wf_x_too_large : SourceInstr.wellFormed ⟨.ld, [16, 0x05]⟩ = false := by decide
theorem test_wf_y_too_large : SourceInstr.wellFormed ⟨.mov, [1, 16]⟩ = false := by decide
theorem test_wf_n_too_large : SourceInstr.wellFormed ⟨.drw, [1, 2, 16]⟩ = false := by decide
theorem test_wf_nn_too_large : SourceInstr.wellFormed ⟨.ld, [1, 0x100]⟩ = false := by decide
theorem test_wf_nnn_too_large : SourceInstr.wellFormed ⟨.jp, [0x1000]⟩ = false := by decide
theorem test_wf_operand_missing : SourceInstr.wellFormed ⟨.ld, [1]⟩ = false := by decide
theorem test_wf_operand_in_excess : SourceInstr.wellFormed ⟨.cls, [1]⟩ = false := by decide
theorem test_wf_largest_operands : SourceInstr.wellFormed ⟨.drw, [15, 15, 15]⟩ = true ∧
    SourceInstr.wellFormed ⟨.ld, [15, 0xFF]⟩ = true ∧ SourceInstr.wellFormed ⟨.jp, [0xFFF]⟩ = true := by decide
theorem test_ill_formed_line_has_no_word : assembleLine (.instr ⟨.ld, [16, 0x05]⟩) = none := by decide

/-! ## Decoding: one word of every constructor, from its row of R66 -/

/-- 00E0, 00EE, 1nnn, 2nnn, Bnnn. -/
theorem test_decode_control :
    decodeWord 0x00E0#16 = .instr .cls ∧ decodeWord 0x00EE#16 = .instr .ret ∧
    decodeWord 0x120A#16 = .instr (.jp 0x20A) ∧ decodeWord 0x2ABC#16 = .instr (.call 0xABC) ∧
    decodeWord 0xBFFF#16 = .instr (.jp0 0xFFF) := by decide

/-- 3xnn, 4xnn, 5xy0, 9xy0. -/
theorem test_decode_skips :
    decodeWord 0x3C5A#16 = .instr (.se 12 0x5A) ∧ decodeWord 0x4100#16 = .instr (.sne 1 0x00) ∧
    decodeWord 0x5230#16 = .instr (.ser 2 3) ∧ decodeWord 0x9230#16 = .instr (.sner 2 3) := by decide

/-- 6xnn, 7xnn, 8xy0 to 8xy3, Cxnn. -/
theorem test_decode_load_and_logic :
    decodeWord 0x6A02#16 = .instr (.ld 10 0x02) ∧ decodeWord 0x71FF#16 = .instr (.addi 1 0xFF) ∧
    decodeWord 0x8230#16 = .instr (.mov 2 3) ∧ decodeWord 0x8121#16 = .instr (.or 1 2) ∧
    decodeWord 0x8122#16 = .instr (.and 1 2) ∧ decodeWord 0x8123#16 = .instr (.xor 1 2) ∧
    decodeWord 0xC30F#16 = .instr (.rnd 3 0x0F) := by decide

/-- 8xy4 to 8xy7, 8xyE. -/
theorem test_decode_flag_writers :
    decodeWord 0x8EF4#16 = .instr (.add 14 15) ∧ decodeWord 0x8125#16 = .instr (.sub 1 2) ∧
    decodeWord 0x8126#16 = .instr (.shr 1 2) ∧ decodeWord 0x8127#16 = .instr (.subn 1 2) ∧
    decodeWord 0x812E#16 = .instr (.shl 1 2) := by decide

/-- Annn, Fx1E, Fx29, Fx33, Fx55, Fx65. -/
theorem test_decode_index :
    decodeWord 0xA300#16 = .instr (.ldi 0x300) ∧ decodeWord 0xF11E#16 = .instr (.addix 1) ∧
    decodeWord 0xF229#16 = .instr (.font 2) ∧ decodeWord 0xF033#16 = .instr (.bcd 0) ∧
    decodeWord 0xF155#16 = .instr (.stm 1) ∧ decodeWord 0xF265#16 = .instr (.ldm 2) := by decide

/-- Dxyn, Ex9E, ExA1, Fx07, Fx0A, Fx15, Fx18. -/
theorem test_decode_display_keys_timers :
    decodeWord 0xD7A9#16 = .instr (.drw 7 10 9) ∧ decodeWord 0xE59E#16 = .instr (.skp 5) ∧
    decodeWord 0xE5A1#16 = .instr (.sknp 5) ∧ decodeWord 0xF407#16 = .instr (.lddt 4) ∧
    decodeWord 0xF30A#16 = .instr (.wkey 3) ∧ decodeWord 0xF315#16 = .instr (.stdt 3) ∧
    decodeWord 0xF618#16 = .instr (.stst 6) := by decide

/-- The unrecognized words 95 §2.6 lists. -/
theorem test_decode_unrecognized :
    [0x0000#16, 0x00E1#16, 0x00FF#16, 0x01E0#16, 0x0FEE#16, 0x0123#16, 0x5011#16, 0x5AB1#16, 0x5ABF#16, 0x9011#16,
      0x9ABF#16, 0x8008#16, 0x8129#16, 0x812A#16, 0x812B#16, 0x812C#16, 0x812D#16, 0x812F#16, 0xE000#16, 0xE19F#16,
      0xE1A0#16, 0xE1A2#16, 0xE09D#16, 0xF000#16, 0xF108#16, 0xF10B#16, 0xF114#16, 0xF116#16, 0xF11F#16, 0xF128#16,
      0xF130#16, 0xF134#16, 0xF154#16, 0xF156#16, 0xF164#16, 0xF166#16, 0xF175#16, 0xF185#16, 0xFFFF#16].all
      (fun w => decide (decodeWord w = .unrecognized w)) = true := by decide

/-- Bytes in memory order, and a list too short. -/
theorem test_decode_bytes :
    decodeBytes [0x12#8, 0x34#8, 0x99#8] = .ok (.jp 0x234, [0x99#8]) ∧ decodeBytes [0x12#8] = .error .truncated ∧
    decodeBytes [0x50#8, 0x11#8] = .error (.unrecognized 0x5011) := by decide

/-- The encoder on the words of P1. -/
theorem test_encode :
    encode (.ld 10 0x02) = 0x6A02#16 ∧ encode (.drw 10 11 5) = 0xDAB5#16 ∧ encode (.ldi 0x000) = 0xA000#16 := by decide

/-- Listing P3 assembles to its image's bytes (first and last words, R70). -/
theorem test_assemble_listing :
    assembleListing 0 [.org 0x200, .instr ⟨.ld, [0xA, 0x03]⟩, .org 0x20E, .word 0x0000] =
      some [(0x200, 0x6A#8), (0x201, 0x03#8), (0x20E, 0x00#8), (0x20F, 0x00#8)] := by decide

/-! ## Control transfer (95 §2.1) -/

/-- T1: nothing changes. -/
theorem test_jp_self : after 0x20A 0x120A id (fun t => decide (t = start 0x20A 0x120A id)) = true := by decide
/-- T2. -/
theorem test_jp_top : after 0x200 0x1FFF id (fun t => t.pc == 0xFFF#16) = true := by decide
/-- T5: 0x1000 reduced modulo 4095. -/
theorem test_jp0_wraps : after 0x200 0xBFFF (fun s => s.setV 0 0x01) (fun t => t.pc == 0x001#16) = true := by decide
/-- T7: 0xFFF is kept. -/
theorem test_jp0_keeps_fff : after 0x200 0xBFFF id (fun t => t.pc == 0xFFF#16) = true := by decide
/-- T9: the 16th level. -/
theorem test_call_last_level : after 0x300 0x2400 (fun s => { s with sp := 30 })
    (fun t => t.stk[30]? == some 0x03#8 && t.stk[31]? == some 0x00#8 && t.sp == 32 && t.pc == 0x400#16) = true := by decide
/-- T10: the 17th level faults. -/
theorem test_call_overflow : after 0x300 0x2400 (fun s => { s with sp := 32 })
    (fun t => t.fault.code == 2#2 && t.sp == 32 && t.pc == 0x300#16) = true := by decide
/-- T11: the popped address plus 2. -/
theorem test_ret : after 0x212 0x00EE (fun s => { s with sp := 2, stk := (s.stk.set 0 0x02#8).set 1 0x04#8 })
    (fun t => t.sp == 0 && t.pc == 0x206#16) = true := by decide
/-- T12. -/
theorem test_ret_underflow : after 0x212 0x00EE id
    (fun t => t.fault.code == 1#2 && t.sp == 0 && t.pc == 0x212#16) = true := by decide
/-- T15 and T16. -/
theorem test_se : after 0x208 0x3100 id (fun t => t.pc == 0x20C#16) = true ∧
    after 0x208 0x3100 (fun s => s.setV 1 0x01) (fun t => t.pc == 0x20A#16) = true := by decide
/-- T17 and T18. -/
theorem test_sne : after 0x208 0x4100 (fun s => s.setV 1 0x01) (fun t => t.pc == 0x20C#16) = true ∧
    after 0x208 0x4100 id (fun t => t.pc == 0x20A#16) = true := by decide
/-- T19 and T20. -/
theorem test_ser : after 0x300 0x5230 (fun s => (s.setV 2 0x7F).setV 3 0x7F) (fun t => t.pc == 0x304#16) = true ∧
    after 0x300 0x5230 (fun s => (s.setV 2 1).setV 3 2) (fun t => t.pc == 0x302#16) = true := by decide
/-- T22 and T23. -/
theorem test_sner : after 0x300 0x9230 (fun s => (s.setV 2 1).setV 3 2) (fun t => t.pc == 0x304#16) = true ∧
    after 0x300 0x9220 id (fun t => t.pc == 0x302#16) = true := by decide
/-- T25: a skip past the end. -/
theorem test_skip_wraps : after 0xFFE 0x3100 id (fun t => t.pc == 0x003#16) = true := by decide
/-- T26: the default advance wraps to 1. -/
theorem test_advance_wraps : after 0xFFE 0x6005 id (fun t => t.pc == 0x001#16 && t.v[0] == 0x05#8) = true := by decide
/-- T28: the second byte of the word is `MEM[0x000]`, a font byte. -/
theorem test_fetch_wraps :
    answers (step (({ State.reset with pc := 0xFFF#16 } : State).memWrite 0xFFF 0x60))
      (fun t => t.v[0] == 0xF0#8 && t.pc == 0x002#16) = true := by decide

/-! ## Load, arithmetic, logic, shift, random (95 §2.2) -/

/-- T31: VF as a plain register. -/
theorem test_ld_vf : after 0x200 0x6FFF id (fun t => t.v[15] == 0xFF#8 && t.pc == 0x202#16) = true := by decide
/-- T33: no carry flag. -/
theorem test_addi_wraps : after 0x200 0x7101 (fun s => (s.setV 1 0xFF).setV 15 0x55)
    (fun t => t.v[1] == 0x00#8 && t.v[15] == 0x55#8) = true := by decide
/-- T34. -/
theorem test_mov : after 0x200 0x8230 (fun s => s.setV 3 0x9C) (fun t => t.v[2] == 0x9C#8) = true := by decide
/-- T35. -/
theorem test_or : after 0x200 0x8121 (fun s => ((s.setV 1 0xF0).setV 2 0x0F).setV 15 0x55)
    (fun t => t.v[1] == 0xFF#8 && t.v[15] == 0x55#8) = true := by decide
/-- T36. -/
theorem test_and : after 0x200 0x8122 (fun s => ((s.setV 1 0xF0).setV 2 0x3C).setV 15 0x55)
    (fun t => t.v[1] == 0x30#8 && t.v[15] == 0x55#8) = true := by decide
/-- T37. -/
theorem test_xor : after 0x200 0x8123 (fun s => ((s.setV 1 0xF0).setV 2 0x3C).setV 15 0x55)
    (fun t => t.v[1] == 0xCC#8 && t.v[15] == 0x55#8) = true := by decide
/-- T40: the carry. -/
theorem test_add_carry : after 0x200 0x8124 (fun s => (s.setV 1 0xFF).setV 2 0x01)
    (fun t => t.v[1] == 0x00#8 && t.v[15] == 0x01#8) = true := by decide
/-- T45: with VF as the destination the sum is lost and the flag stays. -/
theorem test_add_to_vf : after 0x200 0x8F14 (fun s => (s.setV 15 0x10).setV 1 0x20)
    (fun t => t.v[15] == 0x00#8) = true := by decide
/-- T48: a borrow. -/
theorem test_sub_borrow : after 0x200 0x8125 (fun s => (s.setV 1 0x03).setV 2 0x05)
    (fun t => t.v[1] == 0xFE#8 && t.v[15] == 0x00#8 && t.v[2] == 0x05#8) = true := by decide
/-- T49: equal operands, no borrow. -/
theorem test_sub_equal : after 0x200 0x8125 (fun s => (s.setV 1 0x07).setV 2 0x07)
    (fun t => t.v[1] == 0x00#8 && t.v[15] == 0x01#8) = true := by decide
/-- T52. -/
theorem test_subn : after 0x200 0x8127 (fun s => (s.setV 1 0x0A).setV 2 0x0F)
    (fun t => t.v[1] == 0x05#8 && t.v[15] == 0x01#8) = true := by decide
/-- T53. -/
theorem test_subn_borrow : after 0x200 0x8127 (fun s => (s.setV 1 0x05).setV 2 0x03)
    (fun t => t.v[1] == 0xFE#8 && t.v[15] == 0x00#8) = true := by decide
/-- T55. -/
theorem test_shr_from_vy : after 0x200 0x8126 (fun s => (s.setV 2 0x05).setV 1 0xEE)
    (fun t => t.v[1] == 0x02#8 && t.v[15] == 0x01#8 && t.v[2] == 0x05#8) = true := by decide
/-- T56: the other value of `SHIFT_SRC`. -/
theorem test_shr_from_vx : after 0x200 0x8126
    (fun s => { (s.setV 2 0x05).setV 1 0xEE with par := { s.par with shiftSrc := .vx } })
    (fun t => t.v[1] == 0x77#8 && t.v[15] == 0x00#8 && t.v[2] == 0x05#8) = true := by decide
/-- T62. -/
theorem test_shl_from_vy : after 0x200 0x812E (fun s => s.setV 2 0x81)
    (fun t => t.v[1] == 0x02#8 && t.v[15] == 0x01#8) = true := by decide
/-- T63: the other value of `SHIFT_SRC`. -/
theorem test_shl_from_vx : after 0x200 0x812E
    (fun s => { s.setV 2 0x81 with par := { s.par with shiftSrc := .vx } })
    (fun t => t.v[1] == 0x00#8 && t.v[15] == 0x00#8) = true := by decide
/-- T67: for the random byte 0xB7. -/
theorem test_rnd_masked : (rndWith 0xB7 3 0x0F State.reset).v[3] = 0x07#8 := by decide
/-- A step of `C30F` draws one byte and advances (R132). -/
theorem test_rnd_step : after 0x200 0xC30F id (fun t => t.pc == 0x202#16 && t.draws == 1) = true := by decide

/-! ## Index and memory (95 §2.3) -/

/-- T71: the high bits are cleared. -/
theorem test_ldi : after 0x200 0xAFFF (fun s => s.setI 0xFFFF) (fun t => t.i == 0x0FFF#16) = true := by decide
/-- T73: no flag, no mask. -/
theorem test_addix_past_fff : after 0x200 0xF11E (fun s => (s.setI 0x0FFE).setV 1 0x05)
    (fun t => t.i == 0x1003#16 && t.v[15] == 0x00#8) = true := by decide
/-- T74: the 16-bit wrap. -/
theorem test_addix_wraps : after 0x200 0xF11E (fun s => (s.setI 0xFFFF).setV 1 0x01) (fun t => t.i == 0#16) = true := by
  decide
/-- T77 and T78. -/
theorem test_font : after 0x200 0xF229 (fun s => s.setV 2 0x0F) (fun t => t.i == 0x004B#16) = true ∧
    after 0x200 0xF229 (fun s => s.setV 2 0x1A) (fun t => t.i == 0x0032#16) = true := by decide
/-- T79. -/
theorem test_bcd_255 : after 0x200 0xF033 (fun s => (s.setV 0 0xFF).setI 0x300)
    (fun t => t.memRead 0x300 == 0x02#8 && t.memRead 0x301 == 0x05#8 && t.memRead 0x302 == 0x05#8 &&
      t.i == 0x0300#16) = true := by decide
/-- T82: the addresses wrap. -/
theorem test_bcd_wraps : after 0x200 0xF033 (fun s => (s.setV 0 0x7B).setI 0xFFE)
    (fun t => t.memRead 0xFFE == 0x01#8 && t.memRead 0xFFF == 0x02#8 && t.memRead 0x000 == 0x03#8) = true := by decide
/-- T83. -/
theorem test_stm : after 0x200 0xF155 (fun s => (((s.setV 0 0x11).setV 1 0x22).setV 2 0x33).setI 0x400)
    (fun t => t.memRead 0x400 == 0x11#8 && t.memRead 0x401 == 0x22#8 && t.memRead 0x402 == 0x00#8 &&
      t.i == 0x0400#16) = true := by decide
/-- T85: sixteen registers over the end of memory. -/
theorem test_stm_wraps : after 0x200 0xFF55
    (fun s => { s with i := 0x0FF8#16, v := Vector.ofFn (fun j : Fin 16 => BitVec.ofNat 8 j.val) })
    (fun t => t.memRead 0xFF8 == 0x00#8 && t.memRead 0xFFF == 0x07#8 && t.memRead 0x000 == 0x08#8 &&
      t.memRead 0x007 == 0x0F#8 && t.memRead 0x008 == 0x20#8) = true := by decide
/-- T86: V3 is above `x`. -/
theorem test_ldm : after 0x200 0xF265
    (fun s => (((s.memWrite 0x301 0x01).memWrite 0x302 0x05).setV 3 0x99).setI 0x300)
    (fun t => t.v[0] == 0x00#8 && t.v[1] == 0x01#8 && t.v[2] == 0x05#8 && t.v[3] == 0x99#8 && t.i == 0x0300#16) =
      true := by decide
/-- T88: `I` above 0xFFF reads at `I` modulo 4096 and keeps its value. -/
theorem test_ldm_reduces : after 0x200 0xF065 (fun s => (s.memWrite 0x234 0x5A).setI 0x1234)
    (fun t => t.v[0] == 0x5A#8 && t.i == 0x1234#16) = true := by decide

/-! ## Display (95 §2.4) -/

/-- T90, from a screen with all pixels lit. -/
theorem test_cls : after 0x200 0x00E0 (fun s => { s with fb := Vector.replicate 32 0xFFFFFFFFFFFFFFFF#64 })
    (fun t => t.fb == Framebuffer.blank && t.dirty) = true := by decide
/-- T95: clipped on the right and at the bottom. -/
theorem test_drw_clips : after 0x200 0xD012
    (fun s => ((((s.memWrite 0x300 0xFF).memWrite 0x301 0xFF).setI 0x300).setV 0 62).setV 1 31)
    (fun t => lit t.fb 31 1 == [(31, 62), (31, 63)] && lit t.fb 0 2 == [] && t.v[15] == 0x00#8) = true := by decide
/-- T93: one pixel collides. -/
theorem test_drw_collision : after 0x200 0xD011
    (fun s => { (s.memWrite 0x300 0xC0).setI 0x300 with fb := Framebuffer.setPixel Framebuffer.blank 0 1 true })
    (fun t => lit t.fb 0 2 == [(0, 0)] && t.v[15] == 0x01#8 && t.dirty) = true := by decide
/-- The fifth step of P1: the glyph of the digit 0 at (2, 3). -/
theorem test_drw_glyph : after 0x208 0xDAB5 (fun s => (s.setV 10 0x02).setV 11 0x03)
    (fun t => lit t.fb 2 7 == [(3, 2), (3, 3), (3, 4), (3, 5), (4, 2), (4, 5), (5, 2), (5, 5), (6, 2), (6, 5), (7, 2),
      (7, 3), (7, 4), (7, 5)] && t.v[15] == 0x00#8) = true := by decide
/-- T100: the x coordinate is VF as it was before. -/
theorem test_drw_vf_origin : after 0x200 0xDF11 (fun s => ((s.memWrite 0x300 0x80).setI 0x300).setV 15 0x05)
    (fun t => lit t.fb 0 1 == [(0, 5)] && t.v[15] == 0x00#8) = true := by decide

/-! ## Keys and timers (95 §2.5) -/

/-- T110 and T111. -/
theorem test_skp :
    after 0x240 0xE59E (fun s => { s.setV 5 0x07 with keys := 0x0080#16 }) (fun t => t.pc == 0x244#16) = true ∧
    after 0x240 0xE59E (fun s => s.setV 5 0x07) (fun t => t.pc == 0x242#16) = true := by decide
/-- T114: the key number is the low nibble. -/
theorem test_skp_low_nibble :
    after 0x240 0xE59E (fun s => { s.setV 5 0x17 with keys := 0x0080#16 }) (fun t => t.pc == 0x244#16) = true := by
  decide
/-- T112 and T113. -/
theorem test_sknp :
    after 0x240 0xE5A1 (fun s => { s.setV 5 0x07 with keys := 0x0080#16 }) (fun t => t.pc == 0x242#16) = true ∧
    after 0x240 0xE5A1 (fun s => { s.setV 5 0x07 with keys := 0xFF7F#16 }) (fun t => t.pc == 0x244#16) = true := by
  decide
/-- T115: a hold. -/
theorem test_wkey_hold : after 0x200 0xF30A (fun s => s.setV 3 0xAA)
    (fun t => decide (t = start 0x200 0xF30A (fun s => s.setV 3 0xAA))) = true := by decide
/-- T116: the lowest index. -/
theorem test_wkey_lowest : after 0x200 0xF30A (fun s => { s with keys := 0x0090#16 })
    (fun t => t.v[3] == 0x04#8 && t.pc == 0x202#16) = true := by decide
/-- T119. -/
theorem test_lddt : after 0x200 0xF407 (fun s => { s with dt := 0x03#8 })
    (fun t => t.v[4] == 0x03#8 && t.dt == 0x03#8) = true := by decide
/-- T120. -/
theorem test_stdt : after 0x200 0xF315 (fun s => { s.setV 3 0x04 with dtLast := 1000 })
    (fun t => t.dt == 0x04#8 && t.dtLast == 1000) = true := by decide
/-- T121 and T122. -/
theorem test_stst : after 0x200 0xF618 (fun s => s.setV 6 0x1E) (fun t => t.st == 0x1E#8 && t.toneOn) = true ∧
    after 0x200 0xF618 (fun s => { s with st := 5#8 }) (fun t => t.st == 0#8 && !t.toneOn) = true := by decide

/-- The start state of T123 and T124. -/
def timerStart : State := { State.reset with dt := 4#8, dtLast := 1000, stLast := 1000 }

/-- T123: the window is still open. -/
theorem test_timer_open : answers (perform (.timerUpdate 17666) timerStart) (fun t => decide (t = timerStart)) = true := by
  decide
/-- T124: the window has closed; `ST` is floored and its timestamp still reset. -/
theorem test_timer_closed : answers (perform (.timerUpdate 17667) timerStart)
    (fun t => t.dt == 3#8 && t.st == 0#8 && t.dtLast == 17667 && t.stLast == 17667) = true := by decide
/-- T126: one decrement however late. -/
theorem test_timer_late : answers (perform (.timerUpdate 1000000) { State.reset with dt := 1#8, st := 1#8 })
    (fun t => t.dt == 0#8 && t.st == 0#8 && t.dtLast == 1000000) = true := by decide
/-- T127: `now` earlier than the timestamp. -/
theorem test_timer_backwards : answers (perform (.timerUpdate 100) { timerStart with dt := 5#8, dtLast := 5000 })
    (fun t => t.dt == 5#8 && t.dtLast == 5000) = true := by decide
/-- T128. -/
theorem test_ack : answers (perform .ackDirty { State.reset with dirty := true }) (fun t => !t.dirty) = true := by decide
/-- T129. -/
theorem test_set_keys : answers (perform (.setKeys 0x8001) { State.reset with keys := 0x00FF#16 })
    (fun t => t.keys == 0x8001#16) = true := by decide

/-! ## Faults, reports, reset, load, the agenda -/

/-- T14: halted, nothing changes, the code stays. -/
theorem test_halted : answers (cpuStep { State.reset with fault := .stackUnderflow })
    (fun t => decide (t = { State.reset with fault := .stackUnderflow }) && t.fault.code == 1#2) = true := by decide
/-- 95 §2.6: a reported no-op. -/
theorem test_unrecognized : after 0x200 0x5011 id (fun t => t.pc == 0x202#16) = true ∧
    (start 0x200 0x5011 id).report = some 0x5011#16 := by decide
/-- A recognized word makes no report. -/
theorem test_no_report : (start 0x200 0x6A02 id).report = none := by decide
/-- The outputs of the faulting `RET` of P4. -/
theorem test_fault_output :
    answers (step (start 0x206 0x00EE id)) (fun t => decide (stepOutputs (start 0x206 0x00EE id) t =
      { redraw := false, report := none, fault := 1#2 })) = true := by decide
/-- `Reset` leaves a halted state (R204). -/
theorem test_reset_clears_fault : answers (perform (.reset 1000) { State.reset with fault := .stackOverflow })
    (fun t => decide (t.fault = .none) && t.dtLast == 1000 && t.pc == 0x0200#16) = true := by decide
/-- The ends of the `Load` port (R243). -/
theorem test_load_ends : answers (perform (.load 0xFFF 0x5A) State.reset) (fun t => t.memRead 0xFFF == 0x5A#8) = true ∧
    perform (.load 0x1FF 0x5A) State.reset = .fault (.loadAddress 0x1FF) := ⟨by decide, rfl⟩
/-- An operation of the agenda comes before the CPU, and is then off it. -/
theorem test_agenda_first : answers (step { start 0x200 0x6A02 id with agenda := [.setKeys 0x0001, .step] })
    (fun t => t.keys == 0x0001#16 && t.pc == 0x0200#16 && decide (t.agenda = [.step])) = true := by decide
/-- Booting P1's image: the first fetch reads `CLS`. -/
theorem test_boot : answers (boot 0 [0x00#8, 0xE0#8, 0x6A#8, 0x02#8])
    (fun t => t.fetch == 0x00E0#16 && t.memRead 0x203 == 0x02#8 && t.memRead 0x204 == 0x00#8) = true := by decide

/-- The default parameters are not the only ones: a boot under others reads memory as they say. -/
theorem test_boot_with_parameters : answers (boot 0 [0x12#8, 0x00#8] { Config.defaults with memInit := 0xFF#8 })
    (fun t => t.fetch == 0x1200#16 && t.memRead 0x202 == 0xFF#8 && t.memRead 0x000 == 0xF0#8) = true := by decide
/-- `PC_WRAP_MOD` = 0x1000, the alternative of D1: the default advance from 0xFFE goes to 0. -/
theorem test_wrap_modulus : after 0xFFE 0x6005
    (fun s => { s with par := { s.par with pcWrapMod := ⟨0x1000, by decide⟩ } }) (fun t => t.pc == 0x000#16) = true := by
  decide

/-! ## Memory in canonical form -/

/-- Writing what an unlisted address reads as removes the cell. -/
theorem test_write_reset_byte : Memory.write Config.defaults [(0x300, 0x5A#8)] 0x300 0x00#8 = [] ∧
    Memory.write Config.defaults [(0x000, 0x01#8)] 0x000 0xF0#8 = [] := by decide
/-- The form refuses a cell out of order, a repeated address, an address above 4095, and a cell at its reset contents. -/
theorem test_memory_wf :
    ∀ m ∈ [[(2, 0x01#8), (1, 0x01#8)], [(1, 0x01#8), (1, 0x02#8)], [(4096, 0x01#8)], [(0x300, 0x00#8)]],
      Memory.wf Config.defaults m = false := by decide
theorem test_memory_wf_accepts : Memory.wf Config.defaults [(0, 0x01#8), (0xFFF, 0x02#8)] = true := by decide
/-- The font is in memory at reset (R20, R21): the first bytes of 0, of 1, and the last of F. -/
theorem test_font_at_reset : State.reset.memRead 0x000 = 0xF0#8 ∧ State.reset.memRead 0x005 = 0x20#8 ∧
    State.reset.memRead 0x04F = 0x80#8 ∧ State.reset.memRead 0x050 = 0x00#8 := by decide

/-! ## Witnesses: states and operands that meet the hypotheses of the statements -/

/-- The state after a step of the CPU, for witnesses. -/
def nextOf (r : Result) : State :=
  match r with
  | .next t => t
  | _ => State.reset

/-- EncodeOfDecodeIsTheWord, and both clauses of DecodeAgreesWithTheOpcodeMap. -/
theorem witness_decode : decodeWord 0xD7A9#16 = .instr (.drw 7 10 9) ∧
    decodeWord 0x5011#16 = .unrecognized 0x5011#16 := by decide

/-- UnrecognizedWordsAreReportedNoOps. -/
theorem witness_unrecognized : State.reset.Ready ∧ InUnrecognizedSpace State.reset.fetch.toNat := by
  unfold InUnrecognizedSpace; decide
/-- UnrecognizedWordsAreReportedNoOps: an end of each row of R68's table, and its accepted neighbours. -/
theorem witness_unrecognized_rows :
    (∀ op ∈ [0x0FFF, 0x00DF, 0x5001, 0x5FFF, 0x9001, 0x9FFF, 0x8008, 0x8FFF, 0xE000, 0xEFFF, 0xF000, 0xFFFF],
      InUnrecognizedSpace op) ∧
    (∀ op ∈ [0x00E0, 0x00EE, 0x1000, 0x5000, 0x9FF0, 0x8007, 0x8FFE, 0xE09E, 0xEFA1, 0xF007, 0xFF65],
      ¬ InUnrecognizedSpace op) := by
  unfold InUnrecognizedSpace; decide

/-- StepRunsTheDecodedInstruction. -/
theorem witness_step_runs : (start 0x200 0x6A02 id).fault = .none ∧ (start 0x200 0x6A02 id).agenda = [] ∧
    decodeBytes [(start 0x200 0x6A02 id).memRead 0x200, (start 0x200 0x6A02 id).memRead 0x201] =
      .ok (.ld 10 0x02, []) := by decide

/-- FetchIsBigEndianAndWraps. -/
theorem witness_fetch : ({ State.reset with pc := 0xFFF#16 } : State).pc.toNat = 0xFFF := by decide

/-- HaltedStateIsStickyAndInert. -/
theorem witness_halted : ({ State.reset with fault := .stackOverflow } : State).fault ≠ .none ∧
    (∀ t0, Operation.setKeys 0x0001 ≠ .reset t0) ∧
    perform (.setKeys 0x0001) { State.reset with fault := .stackOverflow } =
      .next { State.reset with fault := .stackOverflow, keys := 0x0001 } := ⟨by decide, by simp, rfl⟩

/-- OnlyABadLoadStopsAStep: the right side, at both ends. -/
theorem witness_bad_load : ¬ (0x200 ≤ 0x1FF ∧ 0x1FF ≤ 0xFFF) ∧ ¬ (0x200 ≤ 0x1000 ∧ 0x1000 ≤ 0xFFF) ∧
    ({ State.reset with agenda := [.load 0x1FF 0] } : State).agenda = .load 0x1FF 0 :: [] := by decide

/-- ProgramCounterFollowsTheTable, and the premise of the call stack's statements: the empty stack, one level left, the full stack; a halted CPU. -/
theorem witness_sp_legal : State.reset.StackLegal ∧ ({ State.reset with sp := 30 } : State).StackLegal ∧
    ({ State.reset with sp := 32 } : State).StackLegal ∧
    ({ State.reset with fault := .stackUnderflow } : State).fault ≠ .none := by decide

/-- ProgramCounterReduction: the ends of the second clause; SkipIsTwoAdvances: the last `PC`. -/
theorem witness_pc_reduction : (0x1000 ≤ 0x1000 ∧ 0x1000 ≤ 0x10FE) ∧ (0x1000 ≤ 0x10FE ∧ 0x10FE ≤ 0x10FE) ∧
    0xFFF ≤ 0xFFF ∧ State.reset.par.pcWrapMod.val = 0xFFF := by decide

/-- MemoryAccessMovesOneByte: an address with the same remainder, and its two neighbours. -/
theorem witness_memory_access : 0x1000 % 4096 = 0x0000 % 4096 ∧ 0x1001 % 4096 ≠ 0x0000 % 4096 ∧
    0x0FFF % 4096 ≠ 0x0000 % 4096 := by decide

/-- ShiftsPutTheLostBitInTheFlag, both clauses. -/
theorem witness_shift_source : State.reset.par.shiftSrc = .vy ∧
    (State.resetAt 0 { Config.defaults with shiftSrc := .vx }).par.shiftSrc = .vx := by decide

/-- CallPushesItsOwnAddress, both clauses at their bounds. -/
theorem witness_call : ({ State.reset with sp := 30 } : State).StackLegal ∧
    ({ State.reset with sp := 30 } : State).sp + 2 ≤ 2 * State.reset.par.stackLevels ∧
    ({ State.reset with sp := 32 } : State).sp = 2 * State.reset.par.stackLevels := by decide

/-- CallPushesItsOwnAddress under another `STACK_LEVELS`: the 12th level has room, the 13th has not. -/
theorem witness_call_twelve_levels :
    ({ State.resetAt 0 { Config.defaults with stackLevels := 12 } with sp := 22 } : State).StackLegal ∧
    ({ State.resetAt 0 { Config.defaults with stackLevels := 12 } with sp := 24 } : State).stackHasRoom = false := by
  decide

/-- ReturnPopsAndAddsTwo, both clauses at their bounds. -/
theorem witness_ret : ({ State.reset with sp := 2 } : State).StackLegal ∧
    ({ State.reset with sp := 32 } : State).StackLegal ∧ 2 ≤ ({ State.reset with sp := 2 } : State).sp ∧
    ({ State.reset with sp := 1 } : State).sp < 2 := by decide

/-- ReturnResumesAfterTheCall: the state the call leaves is itself such a `u`. -/
theorem witness_return_resumes : State.reset.StackLegal ∧ State.reset.sp + 2 ≤ 2 * State.reset.par.stackLevels ∧
    exec (.call 0x210) State.reset = .next (nextOf (exec (.call 0x210) State.reset)) ∧
    (nextOf (exec (.call 0x210) State.reset)).par = State.reset.par := ⟨by decide, by decide, rfl, rfl⟩

/-- TakingAFaultOnlyLatchesIt, both disjuncts. -/
theorem witness_taking_a_fault :
    (exec .ret State.reset = .next { State.reset with fault := .stackUnderflow } ∧
      FaultLatch.stackUnderflow ≠ State.reset.fault) ∧
    (exec (.call 0x400) { State.reset with sp := 32 } =
        .next { State.reset with sp := 32, fault := .stackOverflow } ∧
      FaultLatch.stackOverflow ≠ State.reset.fault) := ⟨⟨rfl, by decide⟩, rfl, by decide⟩

/-- The two clauses of a skip, for ComparisonsSkipOneInstruction and KeyTestsSkipOneInstruction. -/
theorem witness_skips : State.reset.v[1] = 0x00#8 ∧ State.reset.v[1] ≠ 0x01#8 ∧ State.reset.v[1] = State.reset.v[2] ∧
    (State.reset.setV 1 1).v[1] ≠ (State.reset.setV 1 1).v[2] ∧
    (0x8000#16).toNat / 2 ^ ((0x1F#8).toNat % 16) % 2 = 1 ∧ (0x7FFF#16).toNat / 2 ^ ((0x1F#8).toNat % 16) % 2 = 0 := by
  decide

/-- SelfJumpIsAFixedPoint. -/
theorem witness_self_jump : (start 0xFFE 0x1FFE id).Ready ∧ (start 0xFFE 0x1FFE id).pc.toNat ≤ 0xFFF ∧
    (start 0xFFE 0x1FFE id).fetch.toNat = 0x1000 + (start 0xFFE 0x1FFE id).pc.toNat := by decide

/-- StoredBlockLoadsBack: the state the store leaves is itself such a `u`. -/
theorem witness_stored_block : exec (.stm 1) State.reset = .next (nextOf (exec (.stm 1) State.reset)) ∧
    (nextOf (exec (.stm 1) State.reset)).i = State.reset.i ∧
    SameMemory (nextOf (exec (.stm 1) State.reset)) (nextOf (exec (.stm 1) State.reset)) :=
  ⟨rfl, by decide, fun _ => rfl⟩

/-- StoreIsSeenByTheNextFetch: program P5, and the last address the premise admits. -/
theorem witness_store_is_seen :
    (1 ≤ (1 : Reg).val ∧ (start 0x206 0xF155 (fun s => s.setI 0x208)).pc.toNat ≤ 0xFFD ∧
      reduceAddr (start 0x206 0xF155 (fun s => s.setI 0x208)).i.toNat = 0x206 + 2) ∧
    (({ State.reset with pc := 0xFFD#16, i := 0xFFF#16 } : State).pc.toNat ≤ 0xFFD ∧
      reduceAddr ({ State.reset with pc := 0xFFD#16, i := 0xFFF#16 } : State).i.toNat = 0xFFD + 2) := by decide

/-- DrawTogglesExactlyTheSpritePixels: a pixel under the sprite and one that is not, at the edges of the screen; and
both cases of VF, on a lit screen and a blank one. -/
theorem witness_draw :
    SpriteBit State.reset 60 31 1 31 63 ∧ ¬ SpriteBit State.reset 60 31 1 31 59 ∧
    (∃ r c, r < 32 ∧ c < 64 ∧ Framebuffer.pixel (Vector.replicate 32 0xFFFFFFFFFFFFFFFF#64) r c = true ∧
      SpriteBit { State.reset with fb := Vector.replicate 32 0xFFFFFFFFFFFFFFFF#64 } 0 0 1 r c) ∧
    (¬ ∃ r c, r < 32 ∧ c < 64 ∧ State.reset.fb.pixel r c = true ∧ SpriteBit State.reset 0 0 0 r c) := by
  refine ⟨by unfold SpriteBit; decide, by unfold SpriteBit; decide, ⟨0, 0, by unfold SpriteBit; decide⟩, ?_⟩
  rintro ⟨r, c, -, -, -, h1, h2, -⟩
  omega

/-- DrawingTwiceRestoresTheScreen: the state the first draw leaves is itself such a `u`. -/
theorem witness_draw_twice : exec (.drw 0 1 5) State.reset = .next (nextOf (exec (.drw 0 1 5) State.reset)) ∧
    (nextOf (exec (.drw 0 1 5) State.reset)).i = State.reset.i ∧
    SameMemory State.reset (nextOf (exec (.drw 0 1 5) State.reset)) ∧
    (nextOf (exec (.drw 0 1 5) State.reset)).v[0] = State.reset.v[0] ∧
    (nextOf (exec (.drw 0 1 5) State.reset)).v[1] = State.reset.v[1] :=
  ⟨rfl, by decide, fun _ => rfl, by decide, by decide⟩

/-- KeyWaitHoldsOrTakesTheLowestKey, both clauses. -/
theorem witness_wkey : State.reset.keys = 0x0000#16 ∧ ({ State.reset with keys := 0x8000#16 } : State).keys ≠ 0x0000#16 := by
  decide

/-- TimerUpdateCountsDownWhenTheWindowCloses: where its clauses meet, and a `now` before the timestamp. -/
theorem witness_timer : (timerStart.dtLast ≤ 17667 ∧ timerStart.par.tickUs ≤ 17667 - timerStart.dtLast) ∧
    ¬ (timerStart.dtLast ≤ 17666 ∧ timerStart.par.tickUs ≤ 17666 - timerStart.dtLast) ∧
    ¬ (timerStart.dtLast ≤ 999 ∧ timerStart.par.tickUs ≤ 999 - timerStart.dtLast) ∧
    (timerStart.stLast ≤ 17667 ∧ timerStart.par.tickUs ≤ 17667 - timerStart.stLast) ∧
    ¬ (timerStart.stLast ≤ 17666 ∧ timerStart.par.tickUs ≤ 17666 - timerStart.stLast) := by decide

/-- AtMostOneDecrementPerInterval: E6's window, cut to its ends. -/
theorem witness_at_most_one : (∀ now ∈ [20000, 20000 + 16666], 20000 ≤ now ∧ now < 20000 + State.reset.par.tickUs) ∧
    performAll ([20000, 20000 + 16666].map .timerUpdate) { State.reset with dt := 10#8 } =
      .next (nextOf (performAll ([20000, 20000 + 16666].map .timerUpdate) { State.reset with dt := 10#8 })) :=
  ⟨by decide, rfl⟩

/-- TimerUpdateIsATickOrNothing. -/
theorem witness_tick : timerStart.dtLast = timerStart.stLast := by decide

/-- LoadWritesOneByteOfTheProgramArea, both clauses at both bounds. -/
theorem witness_load : (0x200 ≤ 0x200 ∧ 0x200 ≤ 0xFFF) ∧ (0x200 ≤ 0xFFF ∧ 0xFFF ≤ 0xFFF) ∧
    ¬ (0x200 ≤ 0x1FF ∧ 0x1FF ≤ 0xFFF) ∧ ¬ (0x200 ≤ 0x1000 ∧ 0x1000 ≤ 0xFFF) := by decide

/-- BootPlacesTheImage, both clauses at their bounds, and an image of two bytes. -/
theorem witness_boot : (List.replicate 3584 0x00#8).length ≤ 3584 ∧ 3584 < (List.replicate 3585 0x00#8).length ∧
    [0x00#8, 0xE0#8].length ≤ 3584 := by
  rw [List.length_replicate, List.length_replicate]; decide

/-- StepKeepsTheInvariant and EveryStepKeepsTheParameters: the reset state and the state its first step leaves. -/
theorem witness_step_keeps : State.reset.Inv ∧ step State.reset = .next State.reset.advance := ⟨by decide, rfl⟩

/-- OnlyDestinationsAndFlagChange: a destination and VF both change. -/
theorem witness_destinations : exec (.add 1 2) ((State.reset.setV 1 0xFF).setV 2 0x02) =
      .next (nextOf (exec (.add 1 2) ((State.reset.setV 1 0xFF).setV 2 0x02))) ∧
    (nextOf (exec (.add 1 2) ((State.reset.setV 1 0xFF).setV 2 0x02))).v[1] ≠ 0xFF#8 ∧
    (nextOf (exec (.add 1 2) ((State.reset.setV 1 0xFF).setV 2 0x02))).v[15] ≠ State.reset.v[15] ∧
    IsFlagWriter (.add 1 2) := ⟨rfl, by decide, by decide, trivial⟩

/-- OnlyStoresChangeMemory, both disjuncts: the last digit of a `BCD` and the last register of an `STM`. -/
theorem witness_stores :
    (exec (.bcd 0) (State.reset.setV 0 0x07) = .next (nextOf (exec (.bcd 0) (State.reset.setV 0 0x07))) ∧ 2 < 4096 ∧
      (nextOf (exec (.bcd 0) (State.reset.setV 0 0x07))).memRead 2 ≠ (State.reset.setV 0 0x07).memRead 2) ∧
    (exec (.stm 0) (State.reset.setI 0xFFFF) = .next (nextOf (exec (.stm 0) (State.reset.setI 0xFFFF))) ∧
      (nextOf (exec (.stm 0) ((State.reset.setI 0xFFFF).setV 0 1))).memRead 0xFFF ≠ State.reset.memRead 0xFFF) :=
  ⟨⟨rfl, by decide, by decide⟩, rfl, by decide⟩

/-- EachRegisterHasItsOwnWriters: each register changes under one of its writers. -/
theorem witness_writers :
    (nextOf (exec (.ldi 0x300) State.reset)).i ≠ State.reset.i ∧
    (nextOf (exec (.drw 0 1 5) State.reset)).fb ≠ State.reset.fb ∧
    (nextOf (exec .cls State.reset)).dirty ≠ State.reset.dirty ∧
    (nextOf (exec (.stdt 1) (State.reset.setV 1 9))).dt ≠ State.reset.dt ∧
    (nextOf (exec (.stst 1) (State.reset.setV 1 9))).st ≠ State.reset.st ∧
    (nextOf (exec (.call 0x300) State.reset)).sp ≠ State.reset.sp := by decide

/-- SoundTimerTimestampsAndDirtyDoNotInfluenceAStep: two states that do differ. -/
theorem witness_unread :
    AgreeButUnread State.reset { State.reset with st := 7#8, dtLast := 5, stLast := 6, dirty := true } ∧
    State.reset ≠ { State.reset with st := 7#8, dtLast := 5, stLast := 6, dirty := true } ∧
    cpuStep State.reset = .next State.reset.advance ∧
    cpuStep { State.reset with st := 7#8, dtLast := 5, stLast := 6, dirty := true } =
      .next (State.advance { State.reset with st := 7#8, dtLast := 5, stLast := 6, dirty := true }) :=
  ⟨rfl, by decide, rfl, rfl⟩

end Sys2Proof.Tests
end

