-- ==== Sys2Proof/Proofs/ProgramCounter.lean ====
section
/-! PROOFS. The program counter (R13, R14): its reduction, and its value after every instruction. -/

namespace Sys2Proof.Machine

/-! ## The reduction (R13) -/

/-- Every modulus is the modulus of some machine, so what holds of a machine's reduction holds of every modulus. -/
theorem pcnorm_toNat_eq (m : Config.WrapModulus) (t : Nat) :
    (pcnorm m t).toNat = if t ≤ 0xFFF then t else t % m.val :=
  pcnorm_toNat { State.reset with par := { Config.defaults with pcWrapMod := m } } t

theorem pcnorm_toNat_le (m : Config.WrapModulus) (t : Nat) : (pcnorm m t).toNat ≤ 0xFFF := by
  rw [pcnorm_toNat_eq m t]
  exact pcAfter_le { State.reset with par := { Config.defaults with pcWrapMod := m } } t

/-- At the default modulus one subtraction reduces every sum that can occur above 0xFFF. -/
theorem pcnorm_defaults_toNat_add {t : Nat} (hlo : 0x1000 ≤ t) (hhi : t ≤ 0x10FE) :
    (pcnorm Config.defaults.pcWrapMod t).toNat + 0xFFF = t := by
  have hmod : Config.defaults.pcWrapMod.val = 0xFFF := rfl
  rw [pcnorm_toNat_eq, hmod, if_neg (by omega)]
  omega

/-! ## The program counter a redirection leaves -/

/-- A jump taken after updates that keep the parameters. -/
theorem jump_pc_toNat {s u : State} (hpar : u.par = s.par) (n : Nat) : (u.jump n).pc.toNat = s.pcAfter n := by
  rw [State.jump_pc, pcnorm_toNat, pcAfter_congr hpar]

/-- A 12-bit address is never reduced. -/
theorem jump_addr_pc_toNat (s : State) (nnn : Addr12) : (s.jump nnn.toNat).pc.toNat = nnn.toNat := by
  have := nnn.isLt
  rw [jump_pc_toNat rfl, pcAfter_of_le _ (by omega)]

/-- The default advance after updates that keep `PC` and the parameters. -/
theorem advance_pc_toNat {s u : State} (hpc : u.pc = s.pc) (hpar : u.par = s.par) :
    u.advance.pc.toNat = s.pcAfter (s.pc.toNat + 2) := by
  rw [State.advance, jump_pc_toNat hpar, hpc]

/-- A conditional skip, its condition as a proposition. -/
theorem skipIf_pc_toNat (s : State) {c : Bool} {p : Prop} [Decidable p] (hp : c = true ↔ p) :
    (s.skipIf c).pc.toNat = s.pcAfter (s.pc.toNat + if p then 4 else 2) := by
  rw [State.skipIf_pc, pcnorm_toNat, if_congr hp rfl rfl]

/-! ## The instructions that do not always advance (R14) -/

/-- `CALL` redirects, or holds where the stack is full: an even `SP` leaves room exactly below `2 * STACK_LEVELS`. -/
theorem execCall_pc (nnn : Addr12) {s : State} (hs : s.StackLegal) :
    ∃ t, execCall nnn s = .next t ∧ t.pc.toNat = pcByTable s (.call nnn) := by
  obtain ⟨-, heven, hle⟩ := hs
  by_cases hfull : s.sp = 2 * s.par.stackLevels
  · have hroom : ¬ s.stackHasRoom = true := by rw [stackHasRoom_iff]; omega
    exact ⟨_, if_neg hroom, (if_pos hfull).symm⟩
  · have hroom : s.stackHasRoom = true := by rw [stackHasRoom_iff]; omega
    exact ⟨_, if_pos hroom, (jump_addr_pc_toNat _ nnn).trans (if_neg hfull).symm⟩

/-- `RET` goes past the `CALL` whose address it pops, or holds where no address is on the stack. -/
theorem execRet_pc (s : State) : ∃ t, execRet s = .next t ∧ t.pc.toNat = pcByTable s .ret := by
  by_cases hempty : s.sp < 2
  · have htop : ¬ s.stackHasTop = true := by rw [stackHasTop_iff]; omega
    exact ⟨_, if_neg htop, (if_pos hempty).symm⟩
  · have htop : s.stackHasTop = true := by rw [stackHasTop_iff]; omega
    have hpc : (s.dropTop16.jump (s.top16.toNat + 2)).pc.toNat = s.pcAfter (poppedAddress s + 2) := by
      rw [jump_pc_toNat (State.dropTop16_par s), top16_toNat]
    exact ⟨_, if_pos htop, hpc.trans (if_neg hempty).symm⟩

/-- `WKEY` holds while no key is pressed. -/
theorem execWkey_pc (x : Reg) (s : State) : ∃ t, execWkey x s = .next t ∧ t.pc.toNat = pcByTable s (.wkey x) := by
  have hnone := lowestKey_none s
  unfold execWkey
  cases hkey : s.lowestKey with
  | none => exact ⟨s, rfl, (if_pos (hnone.1 hkey)).symm⟩
  | some k =>
    have hkeys : ¬ s.keys = 0 := fun h => by simp [hnone.2 h] at hkey
    exact ⟨_, rfl, (advance_pc_toNat rfl rfl).trans (if_neg hkeys).symm⟩

/-! ## The whole table (R14) -/

theorem exec_pc (i : Instr) {s : State} (hs : s.StackLegal) :
    ∃ t, exec i s = .next t ∧ t.pc.toNat = pcByTable s i := by
  cases i with
  | jp nnn => exact ⟨_, rfl, jump_addr_pc_toNat s nnn⟩
  | jp0 nnn => exact ⟨_, rfl, jump_pc_toNat rfl _⟩
  | call nnn => exact execCall_pc nnn hs
  | ret => exact execRet_pc s
  | wkey x => exact execWkey_pc x s
  | se x nn => exact ⟨_, rfl, skipIf_pc_toNat s beq_iff_eq⟩
  | sne x nn => exact ⟨_, rfl, skipIf_pc_toNat s bne_iff_ne⟩
  | ser x y => exact ⟨_, rfl, skipIf_pc_toNat s beq_iff_eq⟩
  | sner x y => exact ⟨_, rfl, skipIf_pc_toNat s bne_iff_ne⟩
  | skp x => exact ⟨_, rfl, skipIf_pc_toNat s Iff.rfl⟩
  | sknp x =>
    refine ⟨_, rfl, (skipIf_pc_toNat s (p := ¬ s.keyPressed (s.lowNibble x) = true) (by simp)).trans ?_⟩
    rw [ite_not]
    rfl
  | stm x => exact ⟨_, rfl, advance_pc_toNat (storeRegs_pc s _) (storeRegs_par s _)⟩
  | _ => exact ⟨_, rfl, advance_pc_toNat rfl rfl⟩

/-- A `Step` of a halted CPU changes nothing (R203). -/
theorem cpuStep_of_fault {s : State} (h : s.fault ≠ .none) : cpuStep s = .next s := if_pos (decide_eq_true h)

/-! ## The statements -/

/-- Settles O13: the first clause for every modulus, the second by one subtraction, the listed values by computation. -/
theorem programCounterReduction : Obligations.ProgramCounterReduction := by
  unfold Obligations.ProgramCounterReduction
  exact ⟨fun m t => ⟨pcnorm_toNat_eq m t, pcnorm_toNat_le m t⟩, fun _ => pcnorm_defaults_toNat_add, by decide⟩

/-- Settles O12, by cases on the instruction: each row of the table is the lemma of the redirection it makes. -/
theorem programCounterFollowsTheTable : Obligations.ProgramCounterFollowsTheTable := by
  unfold Obligations.ProgramCounterFollowsTheTable
  exact ⟨fun s i hs => exec_pc i hs, fun s _ => ⟨s.advance, rfl, advance_pc_toNat rfl rfl⟩,
    fun s h => ⟨s, cpuStep_of_fault h, rfl⟩⟩

end Sys2Proof.Machine
end

