-- ==== Sys2Proof/Proofs/Memory.lean ====
section
/-! PROOFS. The memory access primitives (R40): the residue that selects the byte, and the frame of a write. -/

namespace Sys2Proof.Machine

/-- Two addresses name the same byte exactly when they agree modulo the 4096 bytes of memory. -/
theorem reduceAddr_eq_iff_mod {a c : Nat} : reduceAddr c = reduceAddr a ↔ c % 4096 = a % 4096 := Iff.rfl

/-- The frame of `MemWrite`, field by field: it assigns no field but the memory. -/
theorem State.memWrite_sameButMemoryAndPc (s : State) (a : Nat) (b : Byte) :
    SameButMemoryAndPc s (s.memWrite a b) :=
  have hregs : SameRegs s (s.memWrite a b) := fun _ => by rw [s.memWrite_v a b]
  have hstack : SameStack s (s.memWrite a b) := ⟨s.memWrite_sp a b, s.memWrite_stk a b⟩
  have htimers : SameTimers s (s.memWrite a b) :=
    ⟨s.memWrite_dt a b, s.memWrite_st a b, s.memWrite_dtLast a b, s.memWrite_stLast a b⟩
  have hscreen : SameScreen s (s.memWrite a b) := ⟨s.memWrite_fb a b, s.memWrite_dirty a b⟩
  have hmodel : SameModelFields s (s.memWrite a b) :=
    ⟨s.memWrite_draws a b, s.memWrite_agenda a b, s.memWrite_par a b⟩
  ⟨hregs, s.memWrite_i a b, hstack, htimers, hscreen, s.memWrite_keys a b, s.memWrite_fault a b, hmodel⟩

/-- Settles O15: the read-after-write laws at the two kinds of residue, and the frame of a write. -/
theorem memoryAccessMovesOneByte : Obligations.MemoryAccessMovesOneByte := by
  unfold Obligations.MemoryAccessMovesOneByte
  intro s a b
  exact ⟨fun _ hc => s.memRead_memWrite_same b (reduceAddr_eq_iff_mod.2 hc),
    fun _ hc => s.memRead_memWrite_other b (mt reduceAddr_eq_iff_mod.1 hc),
    s.memWrite_pc a b, s.memWrite_sameButMemoryAndPc a b⟩

end Sys2Proof.Machine
end

