-- ==== Sys2Proof/Proofs/Encoding.lean ====
section
/-! PROOFS. The decoder against the opcode map (R66) and the unrecognized space (R68), and the step of a running CPU at
an unrecognized word (R205). -/

namespace Sys2Proof

open Sys2Proof.Machine

/-! ## A word put together again from its fields (R62) -/

theorem formatNNN_of_fields {op : Word} {m : Nibble} (hm : opMajor op = m) : formatNNN m (opNNN op) = op := by
  apply BitVec.eq_of_toNat_eq
  rw [formatNNN_toNat, ← hm, opMajor_toNat, opNNN_toNat]
  omega

theorem formatXNN_of_fields {op : Word} {m : Nibble} (hm : opMajor op = m) :
    formatXNN m (opX op) (opNN op) = op := by
  apply BitVec.eq_of_toNat_eq
  rw [formatXNN_toNat, ← hm, opMajor_toNat, opX_val, opNN_toNat]
  omega

theorem formatX_of_fields {op : Word} {m : Nibble} {b : Byte} (hm : opMajor op = m) (hb : opNN op = b) :
    formatX m (opX op) b = op :=
  hb ▸ formatXNN_of_fields hm

theorem formatXYN_of_fields {op : Word} {m n : Nibble} (hm : opMajor op = m) (hn : opN op = n) :
    formatXYN m (opX op) (opY op) n = op := by
  apply BitVec.eq_of_toNat_eq
  rw [formatXYN_toNat, ← hm, ← hn, opMajor_toNat, opX_val, opY_val, opN_toNat]
  omega

/-! ## The unrecognized space by the fields the decoder reads (R68) -/

theorem inUnrecognizedSpace_iff_fields (op : Word) : InUnrecognizedSpace op.toNat ↔
    (opMajor op = 0x0#4 ∧ op ≠ 0x00E0#16 ∧ op ≠ 0x00EE#16) ∨
    (opMajor op = 0x5#4 ∧ opN op ≠ 0x0#4) ∨
    (opMajor op = 0x9#4 ∧ opN op ≠ 0x0#4) ∨
    (opMajor op = 0x8#4 ∧ opN op ∉ [0x0#4, 0x1#4, 0x2#4, 0x3#4, 0x4#4, 0x5#4, 0x6#4, 0x7#4, 0xE#4]) ∨
    (opMajor op = 0xE#4 ∧ opNN op ∉ [0x9E#8, 0xA1#8]) ∨
    (opMajor op = 0xF#4 ∧
      opNN op ∉ [0x07#8, 0x0A#8, 0x15#8, 0x18#8, 0x1E#8, 0x29#8, 0x33#8, 0x55#8, 0x65#8]) := by
  simp only [InUnrecognizedSpace, ← BitVec.toNat_inj, opMajor_toNat, opN_toNat, opNN_toNat, ne_eq, List.mem_cons,
    List.not_mem_nil, or_false, BitVec.toNat_ofNat, Nat.reducePow, Nat.reduceMod]
  refine or_congr ?family0 (or_congr Iff.rfl (or_congr Iff.rfl (or_congr ?family8 Iff.rfl)))
  case family0 => omega
  case family8 => omega

/-! ## What the decoder can answer (R65) -/

/-- A reading of the word `op`: the instruction `op` is the encoding of, or `op` itself as unrecognized. -/
def Decoded.Reads (op : Word) : Decoded → Prop
  | .instr i => encode i = op
  | .unrecognized w => w = op ∧ InUnrecognizedSpace op.toNat

theorem decode0_reads {op : Word} (hm : opMajor op = 0x0#4) : (decode0 op).Reads op := by
  unfold decode0
  split
  · next hcls => exact hcls.symm
  split
  · next hret => exact hret.symm
  · next hcls hret => exact ⟨rfl, (inUnrecognizedSpace_iff_fields op).2 (.inl ⟨hm, hcls, hret⟩)⟩

theorem decode8_reads {op : Word} (hm : opMajor op = 0x8#4) : (decode8 op).Reads op := by
  unfold decode8
  split
  case h_10 => exact ⟨rfl, (inUnrecognizedSpace_iff_fields op).2 (by simp_all)⟩
  all_goals exact formatXYN_of_fields hm ‹opN op = _›

theorem decodeE_reads {op : Word} (hm : opMajor op = 0xE#4) : (decodeE op).Reads op := by
  unfold decodeE
  split
  case h_3 => exact ⟨rfl, (inUnrecognizedSpace_iff_fields op).2 (by simp_all)⟩
  all_goals exact formatX_of_fields hm ‹opNN op = _›

theorem decodeF_reads {op : Word} (hm : opMajor op = 0xF#4) : (decodeF op).Reads op := by
  unfold decodeF
  split
  case h_10 => exact ⟨rfl, (inUnrecognizedSpace_iff_fields op).2 (by simp_all)⟩
  all_goals exact formatX_of_fields hm ‹opNN op = _›

theorem decodeWord_reads (op : Word) : (decodeWord op).Reads op := by
  unfold decodeWord
  split
  case h_1 hm => exact decode0_reads hm
  case h_9 hm => exact decode8_reads hm
  case h_15 hm => exact decodeE_reads hm
  case h_16 =>
    have hm : opMajor op = 0xF#4 := by
      simp only [imp_false] at *
      bv_omega
    exact decodeF_reads hm
  case h_2 hm | h_3 hm | h_11 hm | h_12 hm => exact formatNNN_of_fields hm
  case h_4 hm | h_5 hm | h_7 hm | h_8 hm | h_13 hm => exact formatXNN_of_fields hm
  case h_14 hm => exact formatXYN_of_fields hm rfl
  case h_6 hm =>
    split
    · next hn => exact formatXYN_of_fields hm hn
    · next hn => exact ⟨rfl, (inUnrecognizedSpace_iff_fields op).2 (.inr (.inl ⟨hm, hn⟩))⟩
  case h_10 hm =>
    split
    · next hn => exact formatXYN_of_fields hm hn
    · next hn => exact ⟨rfl, (inUnrecognizedSpace_iff_fields op).2 (.inr (.inr (.inl ⟨hm, hn⟩)))⟩

theorem encode_of_decodeWord {op : Word} {i : Instr} (h : decodeWord op = .instr i) : encode i = op :=
  (h ▸ decodeWord_reads op : (Decoded.instr i).Reads op)

theorem unrecognized_of_decodeWord {op w : Word} (h : decodeWord op = .unrecognized w) :
    w = op ∧ InUnrecognizedSpace op.toNat :=
  (h ▸ decodeWord_reads op : (Decoded.unrecognized w).Reads op)

/-! ## The rows of the opcode map (R66) -/

theorem Mnemonic.mem_all (m : Mnemonic) : m ∈ Mnemonic.all := by cases m <;> decide

theorem Mnemonic.row_mem_opcodeTable (m : Mnemonic) : m.row ∈ opcodeTable := List.mem_map_of_mem m.mem_all

/-- The laws made per instruction, of every instruction. -/
theorem tableRow_statement (i : Instr) : Laws.TableRow.Statement i := by
  cases i with
  | cls => exact Laws.TableRow.cls
  | ret => exact Laws.TableRow.ret
  | jp nnn => exact Laws.TableRow.jp nnn
  | call nnn => exact Laws.TableRow.call nnn
  | se x nn => exact Laws.TableRow.se x nn
  | sne x nn => exact Laws.TableRow.sne x nn
  | ser x y => exact Laws.TableRow.ser x y
  | sner x y => exact Laws.TableRow.sner x y
  | ld x nn => exact Laws.TableRow.ld x nn
  | addi x nn => exact Laws.TableRow.addi x nn
  | mov x y => exact Laws.TableRow.mov x y
  | or x y => exact Laws.TableRow.or x y
  | and x y => exact Laws.TableRow.and x y
  | xor x y => exact Laws.TableRow.xor x y
  | add x y => exact Laws.TableRow.add x y
  | sub x y => exact Laws.TableRow.sub x y
  | shr x y => exact Laws.TableRow.shr x y
  | subn x y => exact Laws.TableRow.subn x y
  | shl x y => exact Laws.TableRow.shl x y
  | ldi nnn => exact Laws.TableRow.ldi nnn
  | jp0 nnn => exact Laws.TableRow.jp0 nnn
  | rnd x nn => exact Laws.TableRow.rnd x nn
  | drw x y n => exact Laws.TableRow.drw x y n
  | skp x => exact Laws.TableRow.skp x
  | sknp x => exact Laws.TableRow.sknp x
  | lddt x => exact Laws.TableRow.lddt x
  | wkey x => exact Laws.TableRow.wkey x
  | stdt x => exact Laws.TableRow.stdt x
  | stst x => exact Laws.TableRow.stst x
  | addix x => exact Laws.TableRow.addix x
  | font x => exact Laws.TableRow.font x
  | bcd x => exact Laws.TableRow.bcd x
  | stm x => exact Laws.TableRow.stm x
  | ldm x => exact Laws.TableRow.ldm x

theorem row_selects_encode (i : Instr) : i.mnemonic.row.selects (encode i) = true := (tableRow_statement i).1

theorem TableRow.selects_iff (r : TableRow) (op : Word) : r.selects op = true ↔ op &&& r.opMask = r.opMatch :=
  beq_iff_eq

/-- A row fixes the bits of every field its mask covers. -/
theorem TableRow.extractLsb'_of_selects {r : TableRow} {op : Word} {start len : Nat} (hsel : r.selects op = true)
    (hmask : r.opMask.extractLsb' start len = BitVec.allOnes len) :
    op.extractLsb' start len = r.opMatch.extractLsb' start len := by
  rw [← (r.selects_iff op).1 hsel, BitVec.extractLsb'_and, hmask, BitVec.and_allOnes]

theorem TableRow.opMajor_of_selects {r : TableRow} {op : Word} (hsel : r.selects op = true)
    (hmask : opMajor r.opMask = 0xF#4) : opMajor op = opMajor r.opMatch :=
  TableRow.extractLsb'_of_selects hsel hmask

theorem TableRow.opN_of_selects {r : TableRow} {op : Word} (hsel : r.selects op = true)
    (hmask : opN r.opMask = 0xF#4) : opN op = opN r.opMatch :=
  TableRow.extractLsb'_of_selects hsel hmask

theorem TableRow.opNN_of_selects {r : TableRow} {op : Word} (hsel : r.selects op = true)
    (hmask : opNN r.opMask = 0xFF#8) : opNN op = opNN r.opMatch :=
  TableRow.extractLsb'_of_selects hsel hmask

/-- A row whose mask is the whole word selects its match alone. -/
theorem TableRow.eq_opMatch_of_selects {r : TableRow} {op : Word} (hsel : r.selects op = true)
    (hmask : r.opMask = 0xFFFF#16) : op = r.opMatch := by
  rw [← (r.selects_iff op).1 hsel, hmask]
  exact BitVec.and_allOnes.symm

/-- No row selects a word of the unrecognized space, by the fields each of the map's four masks fixes. -/
theorem Mnemonic.not_inUnrecognizedSpace_of_selects {m : Mnemonic} {op : Word} (hsel : m.row.selects op = true) :
    ¬ InUnrecognizedSpace op.toNat := by
  rw [inUnrecognizedSpace_iff_fields]
  cases m with
  | cls | ret =>
    rw [TableRow.eq_opMatch_of_selects hsel rfl]
    decide
  | jp | call | se | sne | ld | addi | ldi | jp0 | rnd | drw =>
    simp +decide [TableRow.opMajor_of_selects hsel rfl]
  | ser | sner | mov | or | and | xor | add | sub | shr | subn | shl =>
    simp +decide [TableRow.opMajor_of_selects hsel rfl, TableRow.opN_of_selects hsel rfl]
  | skp | sknp | lddt | wkey | stdt | stst | addix | font | bcd | stm | ldm =>
    simp +decide [TableRow.opMajor_of_selects hsel rfl, TableRow.opNN_of_selects hsel rfl]

/-- Rows that select one word agree on the bits both fix. -/
theorem TableRow.opMatch_xor_of_selects {r q : TableRow} {op : Word} (hr : r.selects op = true)
    (hq : q.selects op = true) : (r.opMatch ^^^ q.opMatch) &&& (r.opMask &&& q.opMask) = 0#16 := by
  rw [← (r.selects_iff op).1 hr, ← (q.selects_iff op).1 hq]
  ext k hk
  simp only [BitVec.getElem_and, BitVec.getElem_xor, BitVec.getElem_zero]
  cases op[k] <;> cases r.opMask[k] <;> cases q.opMask[k] <;> rfl

/-- "The 34 rows ... are mutually exclusive" (R66): of any two, a word selects at most one. -/
theorem opcodeTable_exclusive (op : Word) :
    opcodeTable.Pairwise fun r q => ¬ (r.selects op = true ∧ q.selects op = true) :=
  opcodeTable_disjoint.imp fun hclash ⟨hr, hq⟩ => hclash (TableRow.opMatch_xor_of_selects hr hq)

theorem opcodeTable_eq_of_selects {r q : TableRow} {op : Word} (hr : r ∈ opcodeTable) (hq : q ∈ opcodeTable)
    (hrsel : r.selects op = true) (hqsel : q.selects op = true) : r = q := by
  have hsymm : Std.Symm fun r q : TableRow => ¬ (r.selects op = true ∧ q.selects op = true) :=
    ⟨fun _ _ => mt And.symm⟩
  by_contra hne
  exact (opcodeTable_exclusive op).forall hr hq hne ⟨hrsel, hqsel⟩

/-- Settles O3: the decoded instruction encodes to the word, so its row selects it and, the rows being exclusive, no
other does; a word some row selects is not of the unrecognized space. -/
theorem decodeAgreesWithTheOpcodeMap : Obligations.DecodeAgreesWithTheOpcodeMap := by
  unfold Obligations.DecodeAgreesWithTheOpcodeMap
  intro op
  constructor
  · intro i hi
    have hmem := i.mnemonic.row_mem_opcodeTable
    have hsel : i.mnemonic.row.selects op = true := encode_of_decodeWord hi ▸ row_selects_encode i
    exact ⟨hmem, fun r hr => ⟨fun hrsel => opcodeTable_eq_of_selects hr hmem hrsel hsel, fun hrow => hrow ▸ hsel⟩⟩
  · intro w hw
    obtain ⟨hword, hspace⟩ := unrecognized_of_decodeWord hw
    refine ⟨hword, fun r hr => ?_⟩
    obtain ⟨m, -, rfl⟩ := List.mem_map.1 hr
    exact Bool.eq_false_iff.2 fun hsel => m.not_inUnrecognizedSpace_of_selects hsel hspace

/-! ## Unrecognized words (R68, R205) -/

theorem encode_not_inUnrecognizedSpace (i : Instr) : ¬ InUnrecognizedSpace (encode i).toNat :=
  i.mnemonic.not_inUnrecognizedSpace_of_selects (row_selects_encode i)

theorem decodeWord_eq_unrecognized_iff (op : Word) :
    decodeWord op = .unrecognized op ↔ InUnrecognizedSpace op.toNat := by
  refine ⟨fun h => (unrecognized_of_decodeWord h).2, fun hspace => ?_⟩
  cases hdec : decodeWord op with
  | instr i => exact absurd hspace (encode_of_decodeWord hdec ▸ encode_not_inUnrecognizedSpace i)
  | unrecognized w => rw [(unrecognized_of_decodeWord hdec).1]

end Sys2Proof

namespace Sys2Proof.Machine

theorem State.halted_eq_false {s : State} (hfault : s.fault = .none) : s.halted = false :=
  decide_eq_false (not_not_intro hfault)

/-- With nothing on the agenda a step of the model is a `Step` of the CPU (log 2). -/
theorem step_of_agenda_nil {s : State} (hagenda : s.agenda = []) : step s = cpuStep s := by
  rw [step, hagenda]

/-- A running CPU only advances at an unrecognized word (R205). -/
theorem cpuStep_of_unrecognized {s : State} {op : Word} (hfault : s.fault = .none)
    (hdec : decodeWord s.fetch = .unrecognized op) : cpuStep s = .next s.advance := by
  simp [cpuStep, State.halted_eq_false hfault, hdec, execUnrecognized]

/-- And it reports the word (R60, R205). -/
theorem report_of_unrecognized {s : State} {op : Word} (hfault : s.fault = .none)
    (hdec : decodeWord s.fetch = .unrecognized op) : s.report = some op := by
  simp [State.report, State.halted_eq_false hfault, hdec]

/-- Settles O4: the decoder answers unrecognized exactly on R68's table, and there the step is the default advance. -/
theorem unrecognizedWordsAreReportedNoOps : Obligations.UnrecognizedWordsAreReportedNoOps := by
  unfold Obligations.UnrecognizedWordsAreReportedNoOps
  refine ⟨decodeWord_eq_unrecognized_iff, fun s ⟨hfault, hagenda⟩ hspace => ?_⟩
  have hdec := (decodeWord_eq_unrecognized_iff s.fetch).2 hspace
  exact ⟨s.advance, (step_of_agenda_nil hagenda).trans (cpuStep_of_unrecognized hfault hdec),
    advance_pc_toNat rfl rfl, sameButPc_of_eq rfl, report_of_unrecognized hfault hdec⟩

end Sys2Proof.Machine
end

