-- ==== Sys2Proof/Proofs/Flow.lean ====
section
/-! PROOFS. Control transfer (R100 to R107): the jumps, the call and the return with both outcomes of each, and the
comparing skips. The encoding clause of each statement is the round trip of the decoder (R65, R66). -/

namespace Sys2Proof

/-! ## The word of an instruction decodes to it (R65, R66) -/

/-- By the fields the decoder reads, which every format gives back as they were put in. -/
theorem decodeWord_encode (i : Instr) : decodeWord (encode i) = .instr i := by
  cases i with
  | cls | ret => rfl
  | jp | call | ldi | jp0 => simp [encode, decodeWord]
  | se | sne | ld | addi | rnd => simp [encode, decodeWord]
  | ser | sner | drw => simp [encode, decodeWord]
  | mov | or | and | xor | add | sub | shr | subn | shl => simp [encode, decodeWord, decode8]
  | skp | sknp => simp [encode, decodeWord, decodeE]
  | lddt | wkey | stdt | stst | addix | font | bcd | stm | ldm => simp [encode, decodeWord, decodeF]

end Sys2Proof

namespace Sys2Proof.Machine

theorem encodedAs_iff {i : Instr} {op : Nat} : EncodedAs i op ↔ (encode i).toNat = op := by
  refine ⟨And.left, fun h => ⟨h, ?_⟩⟩
  rw [← h, BitVec.ofNat_toNat, BitVec.setWidth_eq, decodeWord_encode]

/-! ## The jumps (R100, R101) and the skips (R104 to R107) -/

theorem jump_sameButPc (s : State) (n : Nat) : SameButPc s (s.jump n) := sameButPc_of_eq rfl

/-- Settles O23: a 12-bit target is never reduced, the sum with `V0` is reduced as every write of `PC`. -/
theorem jumpsGoToTheirTarget : Obligations.JumpsGoToTheirTarget := by
  unfold Obligations.JumpsGoToTheirTarget
  intro s nnn
  exact ⟨encodedAs_iff.2 (formatNNN_toNat 0x1#4 nnn), encodedAs_iff.2 (formatNNN_toNat 0xB#4 nnn),
    ⟨s.jump nnn.toNat, rfl, jump_addr_pc_toNat s nnn, jump_sameButPc s _⟩,
    ⟨s.jump (nnn.toNat + (s.getV 0).toNat), rfl, jump_pc_toNat rfl _, jump_sameButPc s _⟩⟩

/-- Settles O28: each comparison is a conditional skip on the Boolean that says its condition. -/
theorem comparisonsSkipOneInstruction : Obligations.ComparisonsSkipOneInstruction := by
  unfold Obligations.ComparisonsSkipOneInstruction
  intro s x y nn
  exact ⟨encodedAs_iff.2 (formatXNN_toNat 0x3#4 x nn), encodedAs_iff.2 (formatXNN_toNat 0x4#4 x nn),
    encodedAs_iff.2 (formatXYN_toNat 0x5#4 x y 0x0#4), encodedAs_iff.2 (formatXYN_toNat 0x9#4 x y 0x0#4),
    ⟨_, rfl, skipEffect_skipIf s _ _ beq_iff_eq⟩, ⟨_, rfl, skipEffect_skipIf s _ _ bne_iff_ne⟩,
    ⟨_, rfl, skipEffect_skipIf s _ _ beq_iff_eq⟩, ⟨_, rfl, skipEffect_skipIf s _ _ bne_iff_ne⟩⟩

/-! ## The frame of a call and of a return -/

/-- Everything but the call stack and the program counter is as before. -/
def SameButStackAndPc (s t : State) : Prop :=
  SameRegs s t ∧ t.i = s.i ∧ SameMemory s t ∧ SameTimers s t ∧ SameScreen s t ∧ t.keys = s.keys ∧
    t.fault = s.fault ∧ SameModelFields s t

theorem sameButStackAndPc_of_eq {s t : State} (h : t = { s with stk := t.stk, sp := t.sp, pc := t.pc }) :
    SameButStackAndPc s t := by
  rw [h]
  exact ⟨fun _ => rfl, rfl, fun _ => rfl, ⟨rfl, rfl, rfl, rfl⟩, ⟨rfl, rfl⟩, rfl, rfl, rfl, rfl, rfl⟩

/-! ## The call (R102) -/

theorem exec_call_of_room (nnn : Addr12) {s : State} (h : s.sp + 2 ≤ 2 * s.par.stackLevels) :
    exec (.call nnn) s = .next ((s.push16 s.pc).jump nnn.toNat) :=
  if_pos ((stackHasRoom_iff s).2 h)

theorem exec_call_of_noRoom (nnn : Addr12) {s : State} (h : ¬ s.sp + 2 ≤ 2 * s.par.stackLevels) :
    exec (.call nnn) s = .next (s.raise .stackOverflow) :=
  if_neg (mt (stackHasRoom_iff s).1 h)

theorem highByte_eq_ofNat (a : Word) : highByte a = BitVec.ofNat 8 (a.toNat / 256) := by
  rw [← highByte_toNat, BitVec.ofNat_toNat, BitVec.setWidth_eq]

theorem lowByte_eq_ofNat (a : Word) : lowByte a = BitVec.ofNat 8 (a.toNat % 256) := by
  rw [← lowByte_toNat, BitVec.ofNat_toNat, BitVec.setWidth_eq]

/-- Settles O24: `SP + 2 <= 2 * STACK_LEVELS` decides between the push and the fault, and on a legal stack it is also
room in the stack's bytes for the two pushed. -/
theorem callPushesItsOwnAddress : Obligations.CallPushesItsOwnAddress := by
  unfold Obligations.CallPushesItsOwnAddress
  refine fun s nnn => ⟨encodedAs_iff.2 (formatNNN_toNat 0x2#4 nnn), fun ⟨hlen, _, _⟩ hroom => ?pushes,
    fun hfull => exec_call_of_noRoom nnn (by omega)⟩
  case pushes =>
    have hstk := push16_get s s.pc (hlen ▸ hroom)
    rw [highByte_eq_ofNat, lowByte_eq_ofNat] at hstk
    exact ⟨_, exec_call_of_room nnn hroom, rfl, jump_addr_pc_toNat _ nnn, hstk, sameButStackAndPc_of_eq rfl⟩

/-! ## The return (R103) -/

theorem exec_ret_of_top {s : State} (h : 2 ≤ s.sp) :
    exec .ret s = .next (s.dropTop16.jump (s.top16.toNat + 2)) :=
  if_pos ((stackHasTop_iff s).2 h)

theorem exec_ret_of_noTop {s : State} (h : ¬ 2 ≤ s.sp) : exec .ret s = .next (s.raise .stackUnderflow) :=
  if_neg (mt (stackHasTop_iff s).1 h)

/-- The bytes of the top address are bytes of the stack. -/
theorem exists_top_bytes {s : State} (hle : s.sp ≤ s.stk.length) (htop : 2 ≤ s.sp) : ∃ hi lo,
    s.stk[s.sp - 2]? = some hi ∧ s.stk[s.sp - 1]? = some lo ∧ s.top16.toNat = 256 * hi.toNat + lo.toNat := by
  have hhi : s.stk[s.sp - 2]? = some (s.stk[s.sp - 2]'(by omega)) := List.getElem?_eq_getElem _
  have hlo : s.stk[s.sp - 1]? = some (s.stk[s.sp - 1]'(by omega)) := List.getElem?_eq_getElem _
  refine ⟨_, _, hhi, hlo, ?_⟩
  rw [top16_toNat, poppedAddress, hhi, hlo]
  rfl

/-- Settles O25: `2 <= SP` decides between the pop and the fault, and on a legal stack the two bytes popped are there. -/
theorem returnPopsAndAddsTwo : Obligations.ReturnPopsAndAddsTwo := by
  unfold Obligations.ReturnPopsAndAddsTwo
  refine fun s => ⟨encodedAs_iff.2 rfl, fun ⟨hlen, _, hle⟩ htop => ?pops, fun hempty => exec_ret_of_noTop (by omega)⟩
  case pops =>
    obtain ⟨hi, lo, hhi, hlo, haddr⟩ := exists_top_bytes (hlen ▸ hle) htop
    have hpc : (s.dropTop16.jump (s.top16.toNat + 2)).pc.toNat = s.pcAfter (256 * hi.toNat + lo.toNat + 2) := by
      rw [jump_pc_toNat s.dropTop16_par, haddr]
    exact ⟨_, hi, lo, exec_ret_of_top htop, hhi, hlo, hpc, Nat.sub_add_cancel htop, rfl, sameButStackAndPc_of_eq rfl⟩

end Sys2Proof.Machine
end

