-- ==== Sys2Proof/Proofs/Alu.lean ====
section
/-! PROOFS. Load, arithmetic, logic and shift (R120 to R131). Every instruction here is one write of `State.setV` or
`State.setVFlag` and the default advance, so each statement is the shape of that write with the byte and the flag
written as numbers. -/

namespace Sys2Proof.Machine

/-! ## The words of family 8 -/

theorem family8_toNat (x y : Reg) (n : Nibble) :
    (formatXYN 0x8#4 x y n).toNat = 0x8000 + n.toNat + 0x100 * x.val + 0x10 * y.val := by
  have hmajor : (0x8#4 : Nibble).toNat = 8 := rfl
  rw [formatXYN_toNat, hmajor]
  omega

/-! ## The shapes of a result, with the byte written as a number -/

theorem regEffect_setV_of_toNat (s : State) (x : Reg) {b : Byte} {val : Nat} (hb : b.toNat = val) :
    RegEffect s (s.setV x b).advance x val :=
  hb ▸ regEffect_setV s x b

theorem flagEffect_setVFlag_of_toNat (s : State) (x : Reg) {b : Byte} {c : Bool} {val flag : Nat}
    (hb : b.toNat = val) (hc : (flagByte c).toNat = flag) : FlagEffect s (s.setVFlag x b c).advance x val flag :=
  hb ▸ hc ▸ flagEffect_setVFlag s x b c

theorem SameRegsExcept.trans {written : Reg → Prop} {s t u : State} (hst : SameRegsExcept written s t)
    (htu : SameRegsExcept written t u) : SameRegsExcept written s u :=
  fun j hj => (htu j hj).trans (hst j hj)

/-! ## Load, copy and logic (R120, R123 to R126) -/

/-- Settles O16: one write of the immediate, or of the byte copied. -/
theorem loadImmediateAndCopy : Obligations.LoadImmediateAndCopy := by
  unfold Obligations.LoadImmediateAndCopy
  intro s x y nn
  exact ⟨encodedAs_iff.2 (formatXNN_toNat 0x6#4 x nn), encodedAs_iff.2 (family8_toNat x y 0x0#4),
    ⟨_, rfl, regEffect_setV s x nn⟩, ⟨_, rfl, regEffect_setV s x (s.getV y)⟩⟩

/-- Settles O17: the bitwise operations on bytes are those on their numbers. -/
theorem logicIsBitwiseWithoutFlag : Obligations.LogicIsBitwiseWithoutFlag := by
  unfold Obligations.LogicIsBitwiseWithoutFlag
  intro s x y
  exact ⟨encodedAs_iff.2 (family8_toNat x y 0x1#4), encodedAs_iff.2 (family8_toNat x y 0x2#4),
    encodedAs_iff.2 (family8_toNat x y 0x3#4),
    ⟨_, rfl, regEffect_setV_of_toNat s x (BitVec.toNat_or (s.getV x) (s.getV y))⟩,
    ⟨_, rfl, regEffect_setV_of_toNat s x (BitVec.toNat_and (s.getV x) (s.getV y))⟩,
    ⟨_, rfl, regEffect_setV_of_toNat s x (BitVec.toNat_xor (s.getV x) (s.getV y))⟩⟩

/-! ## Adding an immediate (R121) -/

theorem exec_addi_regEffect (x : Reg) (nn : Byte) (s : State) :
    ∃ t, exec (.addi x nn) s = .next t ∧ RegEffect s t x (((s.v[x]).toNat + nn.toNat) % 256) :=
  ⟨_, rfl, regEffect_setV_of_toNat s x (BitVec.toNat_add (s.getV x) nn)⟩

/-- Settles O18: the sum after `LD` is the sum of the immediates, since `LD` leaves the first of them in `V[x]`. -/
theorem addImmediateWrapsWithoutFlag : Obligations.AddImmediateWrapsWithoutFlag := by
  unfold Obligations.AddImmediateWrapsWithoutFlag
  intro s x nn mm
  refine ⟨encodedAs_iff.2 (formatXNN_toNat 0x7#4 x nn), exec_addi_regEffect x nn s, ?sequence⟩
  case sequence =>
    obtain ⟨hld, hldRegs, -⟩ := regEffect_setV s x nn
    obtain ⟨u, hexec, haddi, haddiRegs, -⟩ := exec_addi_regEffect x mm (s.setV x nn).advance
    rw [hld] at haddi
    exact ⟨_, u, rfl, hexec, haddi, hldRegs.trans haddiRegs⟩

/-! ## Sum and difference with a flag (R127, R128, R130) -/

theorem flagByte_carryOut_toNat (a b : Byte) : (flagByte (carryOut a b)).toNat = flagNat (255 < a.toNat + b.toNat) :=
  flagByte_decide_toNat _

theorem flagByte_noBorrow_toNat (a b : Byte) : (flagByte (noBorrow a b)).toNat = flagNat (a.toNat ≥ b.toNat) :=
  flagByte_decide_toNat _

/-- The difference modulo 256 as R128 writes it: `a - b + 256` before the reduction. -/
theorem byte_sub_toNat (a b : Byte) : (a - b).toNat = (a.toNat + 256 - b.toNat) % 256 := by
  have hb := b.isLt
  rw [BitVec.toNat_sub]
  omega

theorem flagEffect_difference (s : State) (x : Reg) (a b : Byte) :
    FlagEffect s (s.setVFlag x (a - b) (noBorrow a b)).advance x ((a.toNat + 256 - b.toNat) % 256)
      (flagNat (a.toNat ≥ b.toNat)) :=
  flagEffect_setVFlag_of_toNat s x (byte_sub_toNat a b) (flagByte_noBorrow_toNat a b)

/-- Settles O19: the sum of two bytes wraps, and the carry is decided on their sum as numbers. -/
theorem addSetsTheCarry : Obligations.AddSetsTheCarry := by
  unfold Obligations.AddSetsTheCarry
  intro s x y
  exact ⟨encodedAs_iff.2 (family8_toNat x y 0x4#4), _, rfl,
    flagEffect_setVFlag_of_toNat s x (BitVec.toNat_add (s.getV x) (s.getV y)) (flagByte_carryOut_toNat _ _)⟩

/-- Settles O20: both are the difference of two bytes, with the operands the other way round. -/
theorem subtractionsSetTheInvertedBorrow : Obligations.SubtractionsSetTheInvertedBorrow := by
  unfold Obligations.SubtractionsSetTheInvertedBorrow
  intro s x y
  exact ⟨encodedAs_iff.2 (family8_toNat x y 0x5#4), encodedAs_iff.2 (family8_toNat x y 0x7#4),
    ⟨_, rfl, flagEffect_difference s x (s.getV x) (s.getV y)⟩,
    ⟨_, rfl, flagEffect_difference s x (s.getV y) (s.getV x)⟩⟩

/-! ## The shifts (R129, R131) -/

theorem State.shiftSource_of_vy {s : State} (h : s.par.shiftSrc = .vy) (x y : Reg) : s.shiftSource x y = s.v[y] := by
  rw [State.shiftSource, h]
  rfl

theorem State.shiftSource_of_vx {s : State} (h : s.par.shiftSrc = .vx) (x y : Reg) : s.shiftSource x y = s.v[x] := by
  rw [State.shiftSource, h]
  rfl

theorem flagByte_toNat (c : Bool) : (flagByte c).toNat = c.toNat := by cases c <;> rfl

/-- A bit of a byte as VF holds it. -/
theorem flagByte_getLsbD_toNat (a : Byte) (k : Nat) : (flagByte (a.getLsbD k)).toNat = a.toNat / 2 ^ k % 2 := by
  rw [flagByte_toNat, BitVec.getLsbD, Nat.toNat_testBit]

theorem flagByte_shiftedOutRight_toNat (a : Byte) : (flagByte (shiftedOutRight a)).toNat = a.toNat % 2 := by
  rw [shiftedOutRight, flagByte_getLsbD_toNat, Nat.pow_zero, Nat.div_one]

theorem flagByte_shiftedOutLeft_toNat (a : Byte) : (flagByte (shiftedOutLeft a)).toNat = a.toNat / 128 := by
  have ha := a.isLt
  rw [shiftedOutLeft, flagByte_getLsbD_toNat]
  omega

theorem byte_shiftRight_one_toNat (a : Byte) : (a >>> 1).toNat = a.toNat / 2 := by
  rw [BitVec.toNat_ushiftRight, Nat.shiftRight_eq_div_pow, Nat.pow_one]

theorem byte_shiftLeft_one_toNat (a : Byte) : (a <<< 1).toNat = 2 * a.toNat % 256 := by
  rw [BitVec.toNat_shiftLeft, Nat.shiftLeft_eq]
  omega

theorem flagEffect_shiftRight (s : State) (x : Reg) (a : Byte) :
    FlagEffect s (s.setVFlag x (a >>> 1) (shiftedOutRight a)).advance x (a.toNat / 2) (a.toNat % 2) :=
  flagEffect_setVFlag_of_toNat s x (byte_shiftRight_one_toNat a) (flagByte_shiftedOutRight_toNat a)

theorem flagEffect_shiftLeft (s : State) (x : Reg) (a : Byte) :
    FlagEffect s (s.setVFlag x (a <<< 1) (shiftedOutLeft a)).advance x (2 * a.toNat % 256) (a.toNat / 128) :=
  flagEffect_setVFlag_of_toNat s x (byte_shiftLeft_one_toNat a) (flagByte_shiftedOutLeft_toNat a)

/-- Settles O21: the shift of whatever byte the source is, and the source by `SHIFT_SRC`. -/
theorem shiftsPutTheLostBitInTheFlag : Obligations.ShiftsPutTheLostBitInTheFlag := by
  unfold Obligations.ShiftsPutTheLostBitInTheFlag
  intro s x y
  have hshr := flagEffect_shiftRight s x (s.shiftSource x y)
  have hshl := flagEffect_shiftLeft s x (s.shiftSource x y)
  exact ⟨encodedAs_iff.2 (family8_toNat x y 0x6#4), encodedAs_iff.2 (family8_toNat x y 0xE#4),
    ⟨_, rfl, fun hvy => State.shiftSource_of_vy hvy x y ▸ hshr, fun hvx => State.shiftSource_of_vx hvx x y ▸ hshr⟩,
    ⟨_, rfl, fun hvy => State.shiftSource_of_vy hvy x y ▸ hshl, fun hvx => State.shiftSource_of_vx hvx x y ▸ hshl⟩⟩

end Sys2Proof.Machine
end

