-- ==== Sys2Proof/Proofs/IndexMemory.lean ====
section
/-! PROOFS. The index register and the memory instructions (R140 to R145). The three writes of `I` are one
`State.setI` and the default advance; the stores and loads go to `I + k`, and as `k` stays far below 4096 no two of
these addresses name the same byte. -/

namespace Sys2Proof.Machine

/-! ## The words of family F -/

theorem familyF_toNat (x : Reg) (nn : Byte) :
    (formatX 0xF#4 x nn).toNat = 0xF000 + nn.toNat + 0x100 * x.val := by
  have hmajor : (0xF#4 : Nibble).toNat = 15 := rfl
  rw [formatX_toNat, hmajor]
  omega

/-! ## Writes of `I` (R140, R141, R142) -/

theorem indexEffect_setI_of_toNat (s : State) {w : Word} {val : Nat} (hw : w.toNat = val) :
    IndexEffect s (s.setI w).advance val :=
  hw ▸ indexEffect_setI s w

theorem zextAddr_toNat (nnn : Addr12) : (zextAddr nnn).toNat = nnn.toNat :=
  BitVec.toNat_setWidth_of_le (by decide)

theorem zextByte_toNat (b : Byte) : (zextByte b).toNat = b.toNat :=
  BitVec.toNat_setWidth_of_le (by decide)

/-- The sum of R141, which wraps at the 16 bits of `I` and not at the end of memory. -/
theorem add_zextByte_toNat (w : Word) (b : Byte) : (w + zextByte b).toNat = (w.toNat + b.toNat) % 65536 := by
  rw [BitVec.toNat_add, zextByte_toNat]

/-- The font table lies in the first 80 bytes, so the address of a glyph does not wrap (R20). -/
theorem glyphAddr_toNat {d : Nat} (hd : d < 16) : (glyphAddr d).toNat = 5 * d := by
  rw [glyphAddr, Config.fontBase, Config.glyphLen, BitVec.toNat_ofNat]
  omega

theorem lowNibble_lt (s : State) (x : Reg) : s.lowNibble x < 16 := Nat.mod_lt _ (by decide)

/-- Settles O30: each is one write of `I`, with the word written as a number. -/
theorem indexRegisterWrites : Obligations.IndexRegisterWrites := by
  unfold Obligations.IndexRegisterWrites
  intro s x nnn
  exact ⟨encodedAs_iff.2 (formatNNN_toNat 0xA#4 nnn), encodedAs_iff.2 (familyF_toNat x 0x1E#8),
    encodedAs_iff.2 (familyF_toNat x 0x29#8),
    ⟨_, rfl, indexEffect_setI_of_toNat s (zextAddr_toNat nnn)⟩,
    ⟨_, rfl, indexEffect_setI_of_toNat s (add_zextByte_toNat s.i (s.getV x))⟩,
    ⟨_, rfl, indexEffect_setI_of_toNat s (glyphAddr_toNat (lowNibble_lt s x))⟩⟩

/-! ## A run of stores: what it leaves unchanged -/

theorem memRead_advance (s : State) (a : Nat) : s.advance.memRead a = s.memRead a := State.memRead_congr rfl rfl a

theorem SameMemoryExcept.advance {stored : Nat → Prop} {s u : State} (h : SameMemoryExcept stored s u) :
    SameMemoryExcept stored s u.advance :=
  fun a ha hstored => (memRead_advance u a).trans (h a ha hstored)

/-- A store after stores: still only memory has changed. -/
theorem memWrite_rest {s u : State} (h : u = { s with mem := u.mem }) (a : Nat) (b : Byte) :
    u.memWrite a b = { s with mem := (u.memWrite a b).mem } := by
  rw [State.memWrite, h]

theorem advance_sameButMemoryAndPc {s u : State} (h : u = { s with mem := u.mem }) :
    SameButMemoryAndPc s u.advance :=
  sameButMemoryAndPc_of_eq (by rw [State.advance, State.jump, h])

/-- An address of the space that is not the reduction of `c` names another byte than `c`. -/
theorem reduceAddr_ne_of_ne {a c : Nat} (ha : a < 4096) (h : a ≠ reduceAddr c) : reduceAddr a ≠ reduceAddr c :=
  (reduceAddr_of_lt ha).symm ▸ h

/-- A store at `I + k` leaves the byte at every other `I + j` as it was. -/
theorem memRead_memWrite_indexed (u s : State) {j k : Nat} (b : Byte) (hj : j < 4096) (hk : k < 4096) (hjk : j ≠ k) :
    (u.memWrite (s.indexed k) b).memRead (s.indexed j) = u.memRead (s.indexed j) :=
  u.memRead_memWrite_other b fun h => hjk (indexed_injective s h hj hk)

/-! ## The decimal digits (R143) -/

theorem decimalDigits_hundreds_toNat (b : Byte) : (decimalDigits b).1.toNat = b.toNat / 100 := by
  have hb := b.isLt
  rw [decimalDigits, BitVec.toNat_ofNat]
  omega

theorem decimalDigits_tens_toNat (b : Byte) : (decimalDigits b).2.1.toNat = b.toNat / 10 % 10 := by
  rw [decimalDigits, BitVec.toNat_ofNat]
  omega

theorem decimalDigits_ones_toNat (b : Byte) : (decimalDigits b).2.2.toNat = b.toNat % 10 := by
  rw [decimalDigits, BitVec.toNat_ofNat]
  omega

/-- The three stores of `BCD`, before the advance (R143). -/
def storeDigits (s : State) (b : Byte) : State :=
  ((s.memWrite (s.indexed 0) (decimalDigits b).1).memWrite (s.indexed 1) (decimalDigits b).2.1).memWrite
    (s.indexed 2) (decimalDigits b).2.2

theorem exec_bcd (x : Reg) (s : State) : exec (.bcd x) s = .next (storeDigits s s.v[x]).advance := rfl

theorem storeDigits_rest (s : State) (b : Byte) : storeDigits s b = { s with mem := (storeDigits s b).mem } :=
  memWrite_rest (memWrite_rest (memWrite_rest rfl _ _) _ _) _ _

theorem storeDigits_hundreds (s : State) (b : Byte) :
    ((storeDigits s b).memRead (s.indexed 0)).toNat = b.toNat / 100 := by
  rw [storeDigits, memRead_memWrite_indexed _ s _ (by decide) (by decide) (by decide),
    memRead_memWrite_indexed _ s _ (by decide) (by decide) (by decide), State.memRead_memWrite_same _ _ rfl,
    decimalDigits_hundreds_toNat]

theorem storeDigits_tens (s : State) (b : Byte) :
    ((storeDigits s b).memRead (s.indexed 1)).toNat = b.toNat / 10 % 10 := by
  rw [storeDigits, memRead_memWrite_indexed _ s _ (by decide) (by decide) (by decide),
    State.memRead_memWrite_same _ _ rfl, decimalDigits_tens_toNat]

theorem storeDigits_ones (s : State) (b : Byte) :
    ((storeDigits s b).memRead (s.indexed 2)).toNat = b.toNat % 10 := by
  rw [storeDigits, State.memRead_memWrite_same _ _ rfl, decimalDigits_ones_toNat]

theorem storeDigits_sameMemoryExcept (s : State) (b : Byte) :
    SameMemoryExcept (fun a => ∃ k, k < 3 ∧ a = reduceAddr (s.indexed k)) s (storeDigits s b) := by
  intro a ha hstored
  have hne : ∀ k, k < 3 → reduceAddr a ≠ reduceAddr (s.indexed k) := fun k hk =>
    reduceAddr_ne_of_ne ha fun h => hstored ⟨k, hk, h⟩
  rw [storeDigits, State.memRead_memWrite_other _ _ (hne 2 (by decide)),
    State.memRead_memWrite_other _ _ (hne 1 (by decide)), State.memRead_memWrite_other _ _ (hne 0 (by decide))]

/-- Settles O31: each digit is read back past the later stores, which go to other addresses. -/
theorem bcdStoresTheDecimalDigits : Obligations.BcdStoresTheDecimalDigits := by
  unfold Obligations.BcdStoresTheDecimalDigits
  intro s x
  exact ⟨encodedAs_iff.2 (familyF_toNat x 0x33#8), _, exec_bcd x s,
    by rw [memRead_advance, storeDigits_hundreds], by rw [memRead_advance, storeDigits_tens],
    by rw [memRead_advance, storeDigits_ones],
    (storeDigits_sameMemoryExcept s s.v[x]).advance,
    advance_pc_toNat (by rw [storeDigits_rest]) (by rw [storeDigits_rest]),
    advance_sameButMemoryAndPc (storeDigits_rest s s.v[x])⟩

/-! ## The block store (R144) -/

theorem storeRegs_sameMemoryExcept (s : State) (n : Nat) :
    SameMemoryExcept (fun a => ∃ k, k ≤ n ∧ a = reduceAddr (s.indexed k)) s (storeRegs s (n + 1)) := by
  intro a ha hstored
  refine memRead_storeRegs_other s (n + 1) a fun k hk h => ?_
  exact reduceAddr_ne_of_ne ha (fun e => hstored ⟨k, Nat.le_of_lt_succ hk, e⟩) h.symm

/-- Settles O32: the loop runs to `x` inclusive, and each register stands at its own address after it. -/
theorem storeBlockWritesTheRegisters : Obligations.StoreBlockWritesTheRegisters := by
  unfold Obligations.StoreBlockWritesTheRegisters
  intro s x
  exact ⟨encodedAs_iff.2 (familyF_toNat x 0x55#8), (storeRegs s (x.val + 1)).advance, rfl,
    fun _ hj => (memRead_advance _ _).trans (memRead_storeRegs s (Nat.lt_succ_of_le hj) x.isLt),
    (storeRegs_sameMemoryExcept s x.val).advance, advance_pc_toNat (storeRegs_pc s _) (storeRegs_par s _),
    advance_sameButMemoryAndPc (storeRegs_rest s _)⟩

/-! ## The block load (R145) -/

theorem loadRegs_get_of_lt (s : State) {k : Nat} {j : Reg} (h : j.val < k) :
    (loadRegs s k)[j] = s.memRead (s.indexed j.val) := by
  rw [loadRegs_get, if_pos h]

theorem loadRegs_get_of_le (s : State) {k : Nat} {j : Reg} (h : k ≤ j.val) : (loadRegs s k)[j] = s.v[j] := by
  rw [loadRegs_get, if_neg (Nat.not_lt.2 h)]

/-- Settles O33: the registers the loop reaches are those up to `x`. -/
theorem loadBlockReadsTheRegisters : Obligations.LoadBlockReadsTheRegisters := by
  unfold Obligations.LoadBlockReadsTheRegisters
  intro s x
  exact ⟨encodedAs_iff.2 (familyF_toNat x 0x65#8), { s with v := loadRegs s (x.val + 1) }.advance, rfl,
    fun _ hj => loadRegs_get_of_lt s (Nat.lt_succ_of_le hj),
    fun _ hj => loadRegs_get_of_le s (Nat.lt_of_not_le hj), advance_pc_toNat rfl rfl, sameButRegsAndPc_of_eq rfl⟩

end Sys2Proof.Machine
end

