-- ==== Sys2Proof/Proofs/Display.lean ====
section
/-! PROOFS. The display instructions (R160 to R162). What drawing does to the pixels and to the collision flag is
`drawRows_spec`; here it is put together with the register, `DIRTY` and program counter writes, and with the frame. -/

namespace Sys2Proof.Machine

/-! ## The frame of a display instruction -/

/-- Everything but the V registers, the screen with its dirty flag, and the program counter is as before. -/
def SameButRegsScreenAndPc (s t : State) : Prop :=
  t.i = s.i ∧ SameStack s t ∧ SameMemory s t ∧ SameTimers s t ∧ t.keys = s.keys ∧ t.fault = s.fault ∧
    SameModelFields s t

theorem sameButRegsScreenAndPc_of_eq {s t : State}
    (h : t = { s with v := t.v, fb := t.fb, dirty := t.dirty, pc := t.pc }) : SameButRegsScreenAndPc s t := by
  rw [h]
  exact ⟨rfl, ⟨rfl, rfl⟩, fun _ => rfl, ⟨rfl, rfl, rfl, rfl⟩, rfl, rfl, rfl, rfl, rfl⟩

/-! ## Clear (R160) -/

/-- Settles O36: the blank screen, `DIRTY`, and the default advance. -/
theorem clearScreenBlanksAndMarksDirty : Obligations.ClearScreenBlanksAndMarksDirty := by
  unfold Obligations.ClearScreenBlanksAndMarksDirty
  intro s
  exact ⟨encodedAs_iff.2 rfl, { s with fb := Framebuffer.blank }.markDirty.advance, rfl,
    fun r c _ _ => by rw [State.advance_fb, State.markDirty_fb, pixel_blank],
    rfl, advance_pc_toNat rfl rfl, fun _ => rfl, sameButRegsScreenAndPc_of_eq rfl⟩

/-! ## Draw (R161, R162) -/

/-- The state `DRW` leaves when the drawing ends in the canvas `k` (R162). -/
def State.withCanvas (s : State) (k : Canvas) : State :=
  ({ s with fb := k.fb }.setV Reg.vf (flagByte k.collision)).markDirty.advance

/-- The canvas is drawn from the coordinates before VF is written (D12). -/
theorem exec_drw (x y : Reg) (n : Nibble) (s : State) :
    exec (.drw x y n) s = .next (s.withCanvas (drawRows s ((s.v[x]).toNat % 64) ((s.v[y]).toNat % 32) n.toNat)) := rfl

theorem withCanvas_get_vf (s : State) (k : Canvas) : (s.withCanvas k).v[15] = flagByte k.collision :=
  setV_get_same { s with fb := k.fb } Reg.vf (flagByte k.collision)

theorem withCanvas_sameRegsExcept (s : State) (k : Canvas) : SameRegsExcept (fun j => j = 15) s (s.withCanvas k) :=
  fun _ hj => setV_get_other { s with fb := k.fb } (flagByte k.collision) hj

/-- Settles O37: the pixels and the collision are those of the drawn rows, the rest is the frame of the writes. -/
theorem drawTogglesExactlyTheSpritePixels : Obligations.DrawTogglesExactlyTheSpritePixels := by
  unfold Obligations.DrawTogglesExactlyTheSpritePixels
  intro s x y n
  obtain ⟨htoggled, hkept, hcollision⟩ := drawRows_spec s ((s.v[x]).toNat % 64) ((s.v[y]).toNat % 32) n.toNat
  exact ⟨encodedAs_iff.2 (formatXYN_toNat 0xD#4 x y n), _, exec_drw x y n s,
    fun r c hr hc => ⟨htoggled r c hr hc, hkept r c hr hc⟩,
    fun hlit => (withCanvas_get_vf s _).trans ((flagByte_eq_one _).2 (hcollision.2 hlit)),
    fun hunlit => (withCanvas_get_vf s _).trans
      ((flagByte_eq_zero _).2 (Bool.eq_false_iff.2 (mt hcollision.1 hunlit))),
    rfl, withCanvas_sameRegsExcept s _, advance_pc_toNat rfl rfl, sameButRegsScreenAndPc_of_eq rfl⟩

end Sys2Proof.Machine
end

