-- ==== Sys2Proof/Proofs/KeysTimers.lean ====
section
/-! PROOFS. Keys and timers (R180 to R185). The key tests are conditional skips on one bit of `KEYS`, the key wait is
settled by what the scan of `KEYS` finds, and a timer write is followed by the default advance. -/

namespace Sys2Proof.Machine

/-! ## The words of family E -/

theorem familyE_toNat (x : Reg) (nn : Byte) :
    (formatX 0xE#4 x nn).toNat = 0xE000 + nn.toNat + 0x100 * x.val :=
  (formatX_toNat 0xE#4 x nn).trans (Nat.add_right_comm ..)

/-! ## The key tests (R180, R181) -/

/-- A key is pressed when its bit of `KEYS`, as a number, is 1 (R26). -/
theorem keyPressed_iff (s : State) (k : Nat) : s.keyPressed k = true ↔ s.keys.toNat / 2 ^ k % 2 = 1 := by
  rw [State.keyPressed, BitVec.getLsbD, Nat.testBit_eq_decide_div_mod_eq, decide_eq_true_iff]

theorem not_keyPressed_iff (s : State) (k : Nat) : (!s.keyPressed k) = true ↔ s.keys.toNat / 2 ^ k % 2 = 0 := by
  rw [Bool.not_eq_true', ← Bool.not_eq_true, keyPressed_iff, Nat.mod_two_not_eq_one]

/-- Settles O39: each test is a conditional skip on the bit of the key that the low nibble of `V[x]` names. -/
theorem keyTestsSkipOneInstruction : Obligations.KeyTestsSkipOneInstruction := by
  unfold Obligations.KeyTestsSkipOneInstruction
  intro s x
  exact ⟨encodedAs_iff.2 (familyE_toNat x 0x9E#8), encodedAs_iff.2 (familyE_toNat x 0xA1#8),
    ⟨_, rfl, skipEffect_skipIf s _ _ (keyPressed_iff s (s.lowNibble x))⟩,
    ⟨_, rfl, skipEffect_skipIf s _ _ (not_keyPressed_iff s (s.lowNibble x))⟩⟩

/-! ## The key wait (R182) -/

theorem exec_wkey_of_noKey (x : Reg) {s : State} (h : s.lowestKey = none) : exec (.wkey x) s = .next s := by
  rw [exec, execWkey, h]

theorem exec_wkey_of_key (x : Reg) {s : State} {k : Nat} (h : s.lowestKey = some k) :
    exec (.wkey x) s = .next (s.setV x (BitVec.ofNat 8 k)).advance := by
  rw [exec, execWkey, h]

/-- Some key is pressed unless `KEYS` = 0. -/
theorem exists_lowestKey {s : State} (h : s.keys ≠ 0x0000#16) : ∃ k, s.lowestKey = some k :=
  Option.ne_none_iff_exists'.1 (mt (lowestKey_none s).1 h)

/-- A key number fits a byte. -/
theorem byte_ofNat_toNat_of_lt {k : Nat} (h : k < 16) : (BitVec.ofNat 8 k).toNat = k :=
  (BitVec.toNat_ofNat k 8).trans (Nat.mod_eq_of_lt (h.trans (by decide)))

/-- Settles O40, by what the scan of `KEYS` finds: nothing exactly when `KEYS` = 0, else the least pressed key. -/
theorem keyWaitHoldsOrTakesTheLowestKey : Obligations.KeyWaitHoldsOrTakesTheLowestKey := by
  unfold Obligations.KeyWaitHoldsOrTakesTheLowestKey
  refine fun s x => ⟨encodedAs_iff.2 (familyF_toNat x 0x0A#8),
    fun hnone => exec_wkey_of_noKey x ((lowestKey_none s).2 hnone), fun hsome => ?takes⟩
  case takes =>
    obtain ⟨k, hkey⟩ := exists_lowestKey hsome
    obtain ⟨hlt, hpressed, hleast⟩ := lowestKey_some s k hkey
    exact ⟨_, k, exec_wkey_of_key x hkey, hlt, hpressed, hleast,
      regEffect_setV_of_toNat s x (byte_ofNat_toNat_of_lt hlt)⟩

/-! ## The timers (R183, R184, R185) -/

theorem advance_sameButPc (s : State) : SameButPc s s.advance := sameButPc_of_eq rfl

theorem toneOn_iff (s : State) : s.toneOn = true ↔ s.st ≠ 0#8 := decide_eq_true_iff

/-- Settles O41: the read is one register write; a timer is written and `PC` advanced, and `tone_on` reads `ST`. -/
theorem timerRegistersAreReadAndWritten : Obligations.TimerRegistersAreReadAndWritten := by
  unfold Obligations.TimerRegistersAreReadAndWritten
  intro s x
  exact ⟨encodedAs_iff.2 (familyF_toNat x 0x07#8), encodedAs_iff.2 (familyF_toNat x 0x15#8),
    encodedAs_iff.2 (familyF_toNat x 0x18#8), ⟨_, rfl, regEffect_setV s x s.dt⟩,
    ⟨_, rfl, rfl, advance_pc_toNat rfl rfl, advance_sameButPc { s with dt := s.v[x] }⟩,
    ⟨_, rfl, rfl, advance_pc_toNat rfl rfl, toneOn_iff _, advance_sameButPc { s with st := s.v[x] }⟩⟩

end Sys2Proof.Machine
end

