-- ==== Sys2Proof/Proofs/Exceptions.lean ====
section
/-! PROOFS. Taking a fault and the halted CPU (R202, R203), the timer engine (R220), and the host's writes of `KEYS` and
`DIRTY` (R226, R228). -/

namespace Sys2Proof.Machine

/-! ## Taking a fault (R202) -/

/-- `CALL` keeps `FAULT` where the stack has room, else it raises. -/
theorem exec_call_fault (nnn : Addr12) (s : State) :
    ∃ t, exec (.call nnn) s = .next t ∧ (t.fault = s.fault ∨ t = s.raise .stackOverflow) := by
  by_cases hroom : s.sp + 2 ≤ 2 * s.par.stackLevels
  · exact ⟨_, exec_call_of_room nnn hroom, .inl rfl⟩
  · exact ⟨_, exec_call_of_noRoom nnn hroom, .inr rfl⟩

/-- `RET` keeps `FAULT` where the stack holds an address, else it raises. -/
theorem exec_ret_fault (s : State) :
    ∃ t, exec .ret s = .next t ∧ (t.fault = s.fault ∨ t = s.raise .stackUnderflow) := by
  by_cases htop : 2 ≤ s.sp
  · exact ⟨_, exec_ret_of_top htop, .inl rfl⟩
  · exact ⟨_, exec_ret_of_noTop htop, .inr rfl⟩

theorem exec_wkey_fault (x : Reg) (s : State) : ∃ t, exec (.wkey x) s = .next t ∧ t.fault = s.fault := by
  cases hkey : s.lowestKey with
  | none => exact ⟨_, exec_wkey_of_noKey x hkey, rfl⟩
  | some k => exact ⟨_, exec_wkey_of_key x hkey, rfl⟩

/-- Every instruction keeps `FAULT`, or is a `RET` or a `CALL` that raises (R200). -/
theorem exec_keeps_fault_or_raises (i : Instr) (s : State) : ∃ t, exec i s = .next t ∧
    (t.fault = s.fault ∨ (i = .ret ∧ t = s.raise .stackUnderflow) ∨
      (∃ nnn, i = .call nnn ∧ t = s.raise .stackOverflow)) := by
  cases i with
  | ret =>
    obtain ⟨t, hexec, hfault⟩ := exec_ret_fault s
    exact ⟨t, hexec, hfault.imp_right fun ht => .inl ⟨rfl, ht⟩⟩
  | call nnn =>
    obtain ⟨t, hexec, hfault⟩ := exec_call_fault nnn s
    exact ⟨t, hexec, hfault.imp_right fun ht => .inr ⟨nnn, rfl, ht⟩⟩
  | wkey x =>
    obtain ⟨t, hexec, hfault⟩ := exec_wkey_fault x s
    exact ⟨t, hexec, .inl hfault⟩
  | se | sne | ser | sner | skp | sknp => exact ⟨_, rfl, .inl (s.skipIf_fault _)⟩
  | stm x => exact ⟨_, rfl, .inl (storeRegs_fault s _)⟩
  | _ => exact ⟨_, rfl, .inl rfl⟩

/-- Settles O27: an instruction that does not keep `FAULT` is one of the two that raise, and its next state is the one
`raise` makes. -/
theorem takingAFaultOnlyLatchesIt : Obligations.TakingAFaultOnlyLatchesIt := by
  unfold Obligations.TakingAFaultOnlyLatchesIt
  refine ⟨fun _ _ => rfl, fun i s t hexec hchanged => ?latches⟩
  case latches =>
    obtain ⟨u, hu, hcases⟩ := exec_keeps_fault_or_raises i s
    obtain rfl := Host.Outcome.next.inj (hu.symm.trans hexec)
    rcases hcases with hsame | ⟨rfl, rfl⟩ | ⟨nnn, rfl, rfl⟩
    · exact absurd hsame hchanged
    · exact ⟨rfl, .inl ⟨rfl, rfl, rfl⟩⟩
    · exact ⟨rfl, .inr ⟨nnn, rfl, rfl, rfl⟩⟩

/-! ## The timer engine (R220) -/

/-- The state a timer update leaves. -/
def State.timersUpdated (s : State) (now : Nat) : State :=
  { s with
    dt := (tickTimer s.par.tickUs now (s.dt, s.dtLast)).1
    dtLast := (tickTimer s.par.tickUs now (s.dt, s.dtLast)).2
    st := (tickTimer s.par.tickUs now (s.st, s.stLast)).1
    stLast := (tickTimer s.par.tickUs now (s.st, s.stLast)).2 }

theorem perform_timerUpdate (now : Nat) (s : State) :
    perform (.timerUpdate now) s = .next (s.timersUpdated now) := rfl

/-- The update does not read `FAULT`: on a halted CORE it is the update of the running one (R203). -/
theorem perform_timerUpdate_withFault (now : Nat) (s : State) (f : FaultLatch) :
    perform (.timerUpdate now) { s with fault := f } = .next { s.timersUpdated now with fault := f } := rfl

theorem tickTimer_of_closed {tick now last : Nat} (c : Byte) (h : last ≤ now ∧ tick ≤ now - last) :
    tickTimer tick now (c, last) = (countDown c, now) :=
  ((tickTimer_cases tick now c last).resolve_right fun hopen => hopen.1 h).2

theorem tickTimer_of_open {tick now last : Nat} (c : Byte) (h : ¬ (last ≤ now ∧ tick ≤ now - last)) :
    tickTimer tick now (c, last) = (c, last) :=
  ((tickTimer_cases tick now c last).resolve_left fun hclosed => h hclosed.1).2

/-- A closed window lowers the counter by 1, floor at 0, and takes `now` as the timestamp. -/
theorem tickTimer_counts_of_closed {tick now last : Nat} (c : Byte) (h : last ≤ now ∧ tick ≤ now - last) :
    (tickTimer tick now (c, last)).1.toNat = c.toNat - 1 ∧ (tickTimer tick now (c, last)).2 = now := by
  rw [tickTimer_of_closed c h]
  exact ⟨countDown_toNat c, rfl⟩

/-- Settles O42: the two cases of the window, for each timer. -/
theorem timerUpdateCountsDownWhenTheWindowCloses : Obligations.TimerUpdateCountsDownWhenTheWindowCloses := by
  unfold Obligations.TimerUpdateCountsDownWhenTheWindowCloses
  exact fun s now => ⟨_, perform_timerUpdate now s,
    tickTimer_counts_of_closed s.dt, fun hopen => Prod.mk.inj (tickTimer_of_open s.dt hopen),
    tickTimer_counts_of_closed s.st, fun hopen => Prod.mk.inj (tickTimer_of_open s.st hopen), rfl⟩

/-! ## The host's writes (R226, R228) -/

theorem perform_setKeys (k : Word) (s : State) : perform (.setKeys k) s = .next { s with keys := k } := rfl

theorem perform_ackDirty (s : State) : perform .ackDirty s = .next { s with dirty := false } := rfl

/-- Settles O45: each operation is the update of its one field. -/
theorem hostWritesKeysAndAcknowledges : Obligations.HostWritesKeysAndAcknowledges := by
  unfold Obligations.HostWritesKeysAndAcknowledges
  exact fun s k => ⟨⟨_, perform_setKeys k s, rfl, rfl⟩, _, perform_ackDirty s, rfl, fun _ _ => rfl, rfl⟩

/-! ## The halted CPU (R203) -/

/-- The codes of the two faults are not 0 (R27, R200). -/
theorem FaultLatch.code_ne_zero {f : FaultLatch} (h : f ≠ .none) : f.code ≠ 0 := by
  cases f with
  | none => exact absurd rfl h
  | stackUnderflow | stackOverflow => decide

theorem report_of_fault {s : State} (h : s.fault ≠ .none) : s.report = none := if_pos (decide_eq_true h)

theorem stepOutputs_of_fault {s : State} (h : s.fault ≠ .none) :
    stepOutputs s s = { redraw := s.dirty, report := none, fault := s.fault.code } := by
  rw [stepOutputs, report_of_fault h]

theorem doLoad_fault {addr : Nat} {b : Byte} {s t : State} (h : doLoad addr b s = .next t) : t.fault = s.fault := by
  obtain ⟨-, -, hwrite⟩ | ⟨-, hstop⟩ := doLoad_cases addr b s
  · obtain rfl := Host.Outcome.next.inj (hwrite.symm.trans h)
    exact s.memWrite_fault addr b
  · exact nomatch hstop.symm.trans h

/-- Of the operations on a halted CORE only `Reset` clears `FAULT` (R204). -/
theorem perform_keeps_fault {s t : State} {o : Operation} (hfault : s.fault ≠ .none) (hreset : ∀ t0, o ≠ .reset t0)
    (h : perform o s = .next t) : t.fault = s.fault := by
  cases o with
  | reset t0 => exact absurd rfl (hreset t0)
  | load addr b => exact doLoad_fault h
  | step =>
    obtain rfl := Host.Outcome.next.inj ((cpuStep_of_fault hfault).symm.trans h)
    rfl
  | timerUpdate | setKeys | ackDirty =>
    obtain rfl := Host.Outcome.next.inj h
    rfl

/-- Settles O9: a `Step` of the halted CPU stops before the fetch, no other operation reads `FAULT`, and only `Reset`
writes it. -/
theorem haltedStateIsStickyAndInert : Obligations.HaltedStateIsStickyAndInert := by
  unfold Obligations.HaltedStateIsStickyAndInert
  exact ⟨fun s hfault => ⟨cpuStep_of_fault hfault, stepOutputs_of_fault hfault, FaultLatch.code_ne_zero hfault,
    fun now => ⟨_, perform_timerUpdate_withFault now s .none, perform_timerUpdate_withFault now s s.fault⟩,
    fun k => perform_setKeys k s, perform_ackDirty s⟩, fun _ _ _ => perform_keeps_fault⟩

end Sys2Proof.Machine
end

