-- ==== Sys2Proof/Proofs/Reset.lean ====
section
/-! PROOFS. The state `Reset` leaves (R240, R30). -/

namespace Sys2Proof.Machine

/-! ## Memory at reset -/

/-- The font table at reset (R21, R30). -/
theorem font_getElem?_eq_resetByte (p : Config.Parameters) {a : Nat} (h : a < 80) :
    p.font[a]? = some (Config.resetByte p a) := by
  have hfont : Config.fontBase ≤ a ∧ a < Config.fontBase + Config.fontLen := by
    simp only [Config.fontBase, Config.fontLen]
    omega
  rw [Config.resetByte, if_pos hfont, Config.fontBase, Nat.sub_zero, Vector.getElem?_eq_getElem h, Option.getD_some]

/-- Every byte above the font table at reset (R30). -/
theorem resetByte_of_ge (p : Config.Parameters) {a : Nat} (h : 80 ≤ a) : Config.resetByte p a = p.memInit :=
  if_neg fun hfont => absurd hfont.2 (Nat.not_lt.2 h)

theorem memRead_resetAt (t0 : Nat) (p : Config.Parameters) {a : Nat} (h : a < 4096) :
    (State.resetAt t0 p).memRead a = Config.resetByte p a := by
  rw [← reduceAddr_of_lt h, State.memRead_reduce]
  rfl

/-! ## The framebuffer at reset -/

theorem pixel_resetAt (t0 : Nat) (p : Config.Parameters) {r : Nat} (c : Nat) (h : r < 32) :
    (State.resetAt t0 p).fb.pixel r c = false := by
  simp [State.resetAt, Framebuffer.pixel, Config.resetRow, h]

/-! ## The operation -/

/-- The state `Reset(t0)` leaves: the reset state of the machine's parameters, and the model's own fields kept. -/
def State.afterReset (s : State) (t0 : Nat) : State :=
  { State.resetAt t0 s.par with draws := s.draws, agenda := s.agenda }

theorem perform_reset (t0 : Nat) (s : State) : perform (.reset t0) s = .next (s.afterReset t0) := rfl

theorem memRead_afterReset (s : State) (t0 : Nat) {a : Nat} (h : a < 4096) :
    (s.afterReset t0).memRead a = Config.resetByte s.par a :=
  (State.memRead_congr rfl rfl a).trans (memRead_resetAt t0 s.par h)

/-- Settles O46: the fields are those of `State.resetAt`, and reset memory lists no byte, so every byte read is the reset
contents of its address. -/
theorem resetLeavesTheResetState : Obligations.ResetLeavesTheResetState := by
  unfold Obligations.ResetLeavesTheResetState
  intro s t0
  have hv : ∀ j : Reg, (s.afterReset t0).v[j] = 0x00#8 := fun j => Vector.getElem_replicate j.isLt
  have hfont : ∀ a, a < 80 → s.par.font[a]? = some ((s.afterReset t0).memRead a) := fun a ha => by
    rw [memRead_afterReset s t0 (by omega), font_getElem?_eq_resetByte s.par ha]
  have hinit : ∀ a, 80 ≤ a → a < 4096 → (s.afterReset t0).memRead a = s.par.memInit := fun a hlo hhi => by
    rw [memRead_afterReset s t0 hhi, resetByte_of_ge s.par hlo]
  exact ⟨_, perform_reset t0 s, hv, rfl, rfl, rfl, List.length_replicate, fun _ => List.eq_of_mem_replicate,
    hfont, hinit, rfl, rfl, rfl, rfl, fun _ c hr _ => pixel_resetAt t0 s.par c hr, rfl, rfl, rfl, rfl⟩

end Sys2Proof.Machine
end

