-- ==== Sys2Proof/Proofs/Other.lean ====
section
/-! PROOFS. The statements about the whole machine and those that join two operations: the round trips of the encoder
and of the assembler, what reads back what another instruction wrote, what an instruction may write, what a step can
answer and what every step keeps, the agenda, and what no instruction reads. -/

namespace Sys2Proof.Machine

/-! ## Encoding (R62, R65, R66) -/

theorem decodeBytes_encodeBytes (i : Instr) (rest : List Byte) :
    decodeBytes (encodeBytes i ++ rest) = .ok (i, rest) := by
  simp only [encodeBytes, bytesOfWord, List.cons_append, List.nil_append, decodeBytes, wordOfBytes_bytes,
    decodeWord_encode]

/-- Settles O1: the fields of each format are read back as they were put in, and a word's two bytes give it back. -/
theorem decodeOfEncodeIsTheInstruction : Obligations.DecodeOfEncodeIsTheInstruction := by
  unfold Obligations.DecodeOfEncodeIsTheInstruction
  exact fun i rest => ⟨decodeWord_encode i, decodeBytes_encodeBytes i rest⟩

/-- Settles O2: the decoder takes a word apart into the fields its format puts together again. -/
theorem encodeOfDecodeIsTheWord : Obligations.EncodeOfDecodeIsTheWord := by
  unfold Obligations.EncodeOfDecodeIsTheWord
  exact fun _ _ => encode_of_decodeWord

/-- Settles O5: each word is decoded by computation. -/
theorem specWordsDecodeAsWritten : Obligations.SpecWordsDecodeAsWritten := by
  unfold Obligations.SpecWordsDecodeAsWritten
  decide

/-! ## Assembly and disassembly (R70) -/

theorem operandsFit_nil_iff {vs : List Nat} : operandsFit [] vs = true ↔ vs = [] := by
  cases vs <;> simp [operandsFit]

/-- An operand that fits its field is the number of a bit vector of the field's width. -/
theorem exists_bits_of_operandsFit {f : Field} {width : Nat} {fs : List Field} {vs : List Nat}
    (hf : f.width = width) (h : operandsFit (f :: fs) vs = true) :
    ∃ (b : BitVec width) (ws : List Nat), vs = b.toNat :: ws ∧ operandsFit fs ws = true := by
  subst hf
  cases vs with
  | nil => exact nomatch h
  | cons v ws =>
    obtain ⟨hv, hws⟩ := Bool.and_eq_true_iff.1 h
    exact ⟨BitVec.ofNatLT v (of_decide_eq_true hv), ws, rfl, hws⟩

/-- An operand that fits a 4-bit field is the number of a register. -/
theorem exists_reg_of_operandsFit {f : Field} {fs : List Field} {vs : List Nat} (hf : f.width = 4)
    (h : operandsFit (f :: fs) vs = true) :
    ∃ (x : Reg) (ws : List Nat), vs = x.val :: ws ∧ operandsFit fs ws = true := by
  obtain ⟨b, ws, hvs, hws⟩ := exists_bits_of_operandsFit hf h
  exact ⟨b.toFin, ws, hvs, hws⟩

@[simp] theorem regOfNat_val (x : Reg) : regOfNat x.val = x := Fin.ext (Nat.mod_eq_of_lt x.isLt)

theorem instrOf_source (i : Instr) : instrOf i.source.mnemonic i.source.operands = some i := by
  cases i <;> simp [Instr.source, instrOf]

/-- Operands that fit the fields of a mnemonic make an instruction, and the line is that instruction's own (R70). -/
theorem instrOf_of_operandsFit {m : Mnemonic} {vs : List Nat} (hfit : operandsFit m.fields vs = true) :
    ∃ i, instrOf m vs = some i ∧ ⟨m, vs⟩ = i.source := by
  cases m with
  | cls | ret =>
    obtain rfl := operandsFit_nil_iff.1 hfit
    exact ⟨_, rfl, rfl⟩
  | jp | call | ldi | jp0 =>
    obtain ⟨a, _, rfl, hnil⟩ := exists_bits_of_operandsFit (width := 12) rfl hfit
    obtain rfl := operandsFit_nil_iff.1 hnil
    exact ⟨_, rfl, by simp [Instr.source]⟩
  | se | sne | ld | addi | rnd =>
    obtain ⟨x, _, rfl, htail⟩ := exists_reg_of_operandsFit rfl hfit
    obtain ⟨b, _, rfl, hnil⟩ := exists_bits_of_operandsFit (width := 8) rfl htail
    obtain rfl := operandsFit_nil_iff.1 hnil
    exact ⟨_, rfl, by simp [Instr.source]⟩
  | ser | sner | mov | or | and | xor | add | sub | shr | subn | shl =>
    obtain ⟨x, _, rfl, htail⟩ := exists_reg_of_operandsFit rfl hfit
    obtain ⟨y, _, rfl, hnil⟩ := exists_reg_of_operandsFit rfl htail
    obtain rfl := operandsFit_nil_iff.1 hnil
    exact ⟨_, rfl, by simp [Instr.source]⟩
  | drw =>
    obtain ⟨x, _, rfl, htail⟩ := exists_reg_of_operandsFit rfl hfit
    obtain ⟨y, _, rfl, hlast⟩ := exists_reg_of_operandsFit rfl htail
    obtain ⟨n, _, rfl, hnil⟩ := exists_bits_of_operandsFit (width := 4) rfl hlast
    obtain rfl := operandsFit_nil_iff.1 hnil
    exact ⟨_, rfl, by simp [Instr.source]⟩
  | skp | sknp | lddt | wkey | stdt | stst | addix | font | bcd | stm | ldm =>
    obtain ⟨x, _, rfl, hnil⟩ := exists_reg_of_operandsFit rfl hfit
    obtain rfl := operandsFit_nil_iff.1 hnil
    exact ⟨_, rfl, by simp [Instr.source]⟩

theorem assembleInstr_source (i : Instr) : assembleInstr i.source = some i :=
  (if_pos (tableRow_statement i).2).trans (instrOf_source i)

theorem assembleInstr_eq_some_iff {l : SourceInstr} {i : Instr} : assembleInstr l = some i ↔ l = i.source := by
  refine ⟨fun h => ?_, fun h => h ▸ assembleInstr_source i⟩
  rw [assembleInstr] at h
  split at h
  · next hfit =>
    obtain ⟨k, hk, hline⟩ := instrOf_of_operandsFit hfit
    exact Option.some.inj (hk.symm.trans h) ▸ hline
  · exact nomatch h

theorem assembleLine_disassemble (op : Word) : assembleLine (disassemble op) = some op := by
  cases hdec : decodeWord op with
  | instr i => simp [disassemble, hdec, assembleLine, assembleInstr_source, encode_of_decodeWord hdec]
  | unrecognized w =>
    obtain rfl := (unrecognized_of_decodeWord hdec).1
    simp [disassemble, hdec, assembleLine, w.isLt]

/-- Settles O6: a word disassembles to the line of its instruction, and a well-formed line is the line of the one
instruction made from its operands. -/
theorem assemblyAndDisassemblyAreOneToOne : Obligations.AssemblyAndDisassemblyAreOneToOne := by
  unfold Obligations.AssemblyAndDisassemblyAreOneToOne
  exact ⟨assembleLine_disassemble, fun _ _ => assembleInstr_eq_some_iff⟩

/-! ## A `Step` of the CPU -/

/-- Settles O8: the two bytes put together big-endian; at 0xFFF the second address reduces to 0. -/
theorem fetchIsBigEndianAndWraps : Obligations.FetchIsBigEndianAndWraps := by
  unfold Obligations.FetchIsBigEndianAndWraps
  intro s
  have hfetch : s.fetch.toNat = 256 * (s.memRead s.pc.toNat).toNat + (s.memRead (s.pc.toNat + 1)).toNat :=
    wordOfBytes_toNat _ _
  refine ⟨hfetch, fun hpc => ?_⟩
  have hlow : s.memRead (s.pc.toNat + 1) = s.memRead 0 := by rw [hpc]; rfl
  rw [hfetch, hlow]
  have := (s.memRead 0).isLt
  omega

theorem decodeWord_of_decodeBytes {hi lo : Byte} {rest rest' : List Byte} {i : Instr}
    (h : decodeBytes (hi :: lo :: rest) = .ok (i, rest')) : decodeWord (wordOfBytes hi lo) = .instr i := by
  cases hdec : decodeWord (wordOfBytes hi lo) with
  | instr k =>
    simp only [decodeBytes, hdec, Except.ok.injEq, Prod.mk.injEq] at h
    rw [h.1]
  | unrecognized op => simp [decodeBytes, hdec] at h

theorem cpuStep_of_instr {s : State} {i : Instr} (hfault : s.fault = .none) (hdec : decodeWord s.fetch = .instr i) :
    cpuStep s = exec i s := by
  simp [cpuStep, State.halted_eq_false hfault, hdec]

theorem report_of_instr {s : State} {i : Instr} (hfault : s.fault = .none) (hdec : decodeWord s.fetch = .instr i) :
    s.report = none := by
  simp [State.report, State.halted_eq_false hfault, hdec]

/-- Settles O7: the bytes at `PC` put together are the word fetched, and with it decoded the step is one branch of
`cpuStep`. -/
theorem stepRunsTheDecodedInstruction : Obligations.StepRunsTheDecodedInstruction := by
  unfold Obligations.StepRunsTheDecodedInstruction
  intro s i hfault hbytes
  have hdec : decodeWord s.fetch = .instr i := decodeWord_of_decodeBytes hbytes
  exact ⟨fun hagenda => (step_of_agenda_nil hagenda).trans (cpuStep_of_instr hfault hdec),
    fun rest => cpuStep_of_instr (s := { s with agenda := rest }) hfault hdec, report_of_instr hfault hdec⟩

/-- What a `Step` can do: nothing while halted, the decoded instruction, or the advance at an unrecognized word. -/
theorem cpuStep_cases (s : State) :
    cpuStep s = .next s ∨ (∃ i, cpuStep s = exec i s) ∨ cpuStep s = .next s.advance := by
  by_cases hfault : s.fault = .none
  · cases hdec : decodeWord s.fetch with
    | instr i => exact .inr (.inl ⟨i, cpuStep_of_instr hfault hdec⟩)
    | unrecognized op => exact .inr (.inr (cpuStep_of_unrecognized hfault hdec))
  · exact .inl (cpuStep_of_fault hfault)

/-! ## Skips and jumps (R14, R100) -/

/-- At modulus 0xFFF the sum with 4 is reduced as two sums with 2, each reduced, are (R14). -/
theorem pcnorm_add_four {m : Config.WrapModulus} (hmod : m.val = 0xFFF) {pc : Nat} (hpc : pc ≤ 0xFFF) :
    pcnorm m (pc + 4) = pcnorm m ((pcnorm m (pc + 2)).toNat + 2) := by
  apply BitVec.eq_of_toNat_eq
  rw [pcnorm_toNat_eq, pcnorm_toNat_eq, pcnorm_toNat_eq, hmod]
  split_ifs <;> omega

/-- Settles O14: a skip and two advances write `PC` alone, with the one sum reduced and with the two. -/
theorem skipIsTwoAdvances : Obligations.SkipIsTwoAdvances := by
  unfold Obligations.SkipIsTwoAdvances
  exact fun s _ hmod => ⟨pcnorm_add_four hmod,
    fun hpc => congrArg (fun w => { s with pc := w }) (pcnorm_add_four hmod hpc)⟩

theorem jump_pc_self {s : State} (h : s.PcInRange) : s.jump s.pc.toNat = s := by
  have hpc : pcnorm s.par.pcWrapMod s.pc.toNat = s.pc :=
    BitVec.eq_of_toNat_eq ((pcnorm_toNat s _).trans (pcAfter_of_le s h))
  rw [State.jump, hpc]

/-- Settles O29: the word fetched is the encoding of that `JP`, and a jump to a `PC` in range writes what `PC` holds. -/
theorem selfJumpIsAFixedPoint : Obligations.SelfJumpIsAFixedPoint := by
  unfold Obligations.SelfJumpIsAFixedPoint
  intro s ⟨hfault, hagenda⟩ hpc hfetch
  have haddr : (BitVec.ofNat 12 s.pc.toNat).toNat = s.pc.toNat := by
    rw [BitVec.toNat_ofNat]
    omega
  have hword : s.fetch = encode (.jp (BitVec.ofNat 12 s.pc.toNat)) := by
    apply BitVec.eq_of_toNat_eq
    rw [hfetch, encode, formatNNN_toNat, haddr]
    rfl
  calc step s = cpuStep s := step_of_agenda_nil hagenda
    _ = exec (.jp (BitVec.ofNat 12 s.pc.toNat)) s := cpuStep_of_instr hfault (hword ▸ decodeWord_encode _)
    _ = .next (s.jump (BitVec.ofNat 12 s.pc.toNat).toNat) := rfl
    _ = .next s := by rw [haddr, jump_pc_self hpc]

/-! ## Call then return (R102, R103) -/

/-- The address on top of a stack a push left is the address pushed (R17). -/
theorem top16_of_push16 {s u : State} (a : Word) (hroom : s.sp + 2 ≤ s.stk.length) (hsp : u.sp = s.sp + 2)
    (hstk : u.stk = (s.push16 a).stk) : u.top16 = a := by
  have hhi : u.stk[u.sp - 2]? = some (highByte a) := by
    rw [hsp, hstk, Nat.add_sub_cancel, push16_get s a hroom, if_pos rfl]
  have hlo : u.stk[u.sp - 1]? = some (lowByte a) := by
    rw [hsp, hstk, Nat.add_sub_assoc (by decide), push16_get s a hroom, if_neg (by omega), if_pos rfl]
  rw [State.top16, hhi, hlo]
  exact wordOfBytes_bytes a

/-- Settles O26: the two bytes the call pushed are the ones the return pops, and together they are the address of the
call. -/
theorem returnResumesAfterTheCall : Obligations.ReturnResumesAfterTheCall := by
  unfold Obligations.ReturnResumesAfterTheCall
  intro s u nnn ⟨hlen, _, _⟩ hroom
  refine ⟨_, exec_call_of_room nnn hroom, fun hpar (hsp : u.sp = s.sp + 2) hstk => ?_⟩
  have htop : u.top16 = s.pc := top16_of_push16 s.pc (hlen ▸ hroom) hsp hstk
  refine ⟨_, exec_ret_of_top (by omega), ?_, ?_⟩
  · rw [jump_pc_toNat u.dropTop16_par, htop, pcAfter_congr hpar]
  · rw [State.jump_sp, State.dropTop16_sp, hsp, Nat.add_sub_cancel]

/-! ## Stored and read again (R49, R144, R145) -/

theorem indexed_congr {s u : State} (h : u.i = s.i) (k : Nat) : u.indexed k = s.indexed k := by
  rw [State.indexed, State.indexed, h]

theorem memRead_of_reduceAddr_eq (s : State) {a c : Nat} (h : reduceAddr a = reduceAddr c) :
    s.memRead a = s.memRead c := by
  rw [← State.memRead_reduce, h, State.memRead_reduce]

/-- Settles O34: the loads read, at the same addresses, the bytes the stores left there. -/
theorem storedBlockLoadsBack : Obligations.StoredBlockLoadsBack := by
  unfold Obligations.StoredBlockLoadsBack
  intro s u x
  refine ⟨(storeRegs s (x.val + 1)).advance, rfl, fun hi hmem =>
    ⟨{ u with v := loadRegs u (x.val + 1) }.advance, rfl, fun j hj => ?_⟩⟩
  have hlt : j.val < x.val + 1 := Nat.lt_succ_of_le hj
  calc (loadRegs u (x.val + 1))[j]
    _ = u.memRead (s.indexed j.val) := by rw [loadRegs_get_of_lt u hlt, indexed_congr hi]
    _ = (storeRegs s (x.val + 1)).memRead (s.indexed j.val) := (hmem _).trans (memRead_advance _ _)
    _ = s.v[j] := memRead_storeRegs s hlt x.isLt

/-- Settles O35: the two addresses fetched from name the bytes at `I` and `I + 1`, where V0 and V1 were stored. -/
theorem storeIsSeenByTheNextFetch : Obligations.StoreIsSeenByTheNextFetch := by
  unfold Obligations.StoreIsSeenByTheNextFetch
  intro s x hx hpc hi
  have hnext : (storeRegs s (x.val + 1)).advance.pc.toNat = s.pc.toNat + 2 := by
    rw [advance_pc_toNat (storeRegs_pc s _) (storeRegs_par s _), pcAfter_of_le s (by omega)]
  have hfirst : reduceAddr (s.pc.toNat + 2) = reduceAddr (s.indexed 0) := by
    rw [← hi, reduceAddr_reduceAddr]
    rfl
  have hsecond : reduceAddr (s.pc.toNat + 2 + 1) = reduceAddr (s.indexed 1) := by
    rw [← hi]
    exact Nat.mod_add_mod ..
  refine ⟨(storeRegs s (x.val + 1)).advance, rfl, ?_⟩
  rw [State.fetch, hnext, memRead_advance, memRead_advance, memRead_of_reduceAddr_eq _ hfirst,
    memRead_of_reduceAddr_eq _ hsecond, memRead_storeRegs s (by omega) x.isLt, memRead_storeRegs s (by omega) x.isLt]

/-! ## Drawing twice (R162) -/

theorem spriteBit_congr {s u : State} (hi : u.i = s.i) (hmem : SameMemory s u) {x0 y0 n r c : Nat} :
    SpriteBit u x0 y0 n r c ↔ SpriteBit s x0 y0 n r c := by
  rw [SpriteBit, SpriteBit, hi, hmem]

section DrawTwice
variable {s u : State} {x0 y0 n : Nat} (hfb : u.fb = (drawRows s x0 y0 n).fb) (hi : u.i = s.i)
  (hmem : SameMemory s u)
include hfb hi hmem

theorem drawRows_twice_fb : (drawRows u x0 y0 n).fb = s.fb := by
  obtain ⟨htoggled, hkept, -⟩ := drawRows_spec s x0 y0 n
  obtain ⟨htoggled', hkept', -⟩ := drawRows_spec u x0 y0 n
  apply framebuffer_ext
  intro r c hr hc
  by_cases hbit : SpriteBit s x0 y0 n r c
  · rw [htoggled' r c hr hc ((spriteBit_congr hi hmem).2 hbit), hfb, htoggled r c hr hc hbit, Bool.not_not]
  · rw [hkept' r c hr hc (mt (spriteBit_congr hi hmem).1 hbit), hfb, hkept r c hr hc hbit]

theorem drawRows_twice_collision : (drawRows u x0 y0 n).collision = true ↔
    ∃ r c, r < 32 ∧ c < 64 ∧ s.fb.pixel r c = false ∧ SpriteBit s x0 y0 n r c := by
  obtain ⟨htoggled, -, -⟩ := drawRows_spec s x0 y0 n
  obtain ⟨-, -, hcollision⟩ := drawRows_spec u x0 y0 n
  rw [hcollision]
  refine exists_congr fun r => exists_congr fun c => and_congr_right fun hr => and_congr_right fun hc => ?_
  rw [spriteBit_congr hi hmem]
  refine and_congr_left fun hbit => ?_
  rw [hfb, htoggled r c hr hc hbit, Bool.not_eq_true']

end DrawTwice

/-- Settles O38: the second draw toggles the same pixels back, and collides where the first one lit. -/
theorem drawingTwiceRestoresTheScreen : Obligations.DrawingTwiceRestoresTheScreen := by
  unfold Obligations.DrawingTwiceRestoresTheScreen
  intro s u x y n
  refine ⟨_, exec_drw x y n s, fun hfb hi hmem hx hy => ⟨_, exec_drw x y n u, ?_, ?_⟩⟩
  · rw [hx, hy]
    exact drawRows_twice_fb hfb hi hmem
  · rw [withCanvas_get_vf, flagByte_eq_one, hx, hy]
    exact drawRows_twice_collision hfb hi hmem

/-! ## The random byte (R132) -/

/-- Settles O22: one write of the masked byte, whatever the random byte. -/
theorem randomByteIsMasked : Obligations.RandomByteIsMasked := by
  unfold Obligations.RandomByteIsMasked
  intro s x nn
  exact ⟨encodedAs_iff.2 (formatXNN_toNat 0xC#4 x nn), rfl,
    fun rnd => regEffect_setV_of_toNat s x (BitVec.toNat_and rnd nn)⟩

/-! ## The timers (R220 to R222) -/

/-- Settles O44: the equal timestamps make one window of the two, closed for both timers or open for both. -/
theorem timerUpdateIsATickOrNothing : Obligations.TimerUpdateIsATickOrNothing := by
  unfold Obligations.TimerUpdateIsATickOrNothing
  intro s now hlast
  refine ⟨_, perform_timerUpdate now s, ?_⟩
  by_cases hclosed : s.dtLast ≤ now ∧ s.par.tickUs ≤ now - s.dtLast
  · obtain ⟨hdt, hdtLast⟩ := tickTimer_counts_of_closed s.dt hclosed
    obtain ⟨hst, hstLast⟩ := tickTimer_counts_of_closed s.st (hlast ▸ hclosed)
    exact ⟨hdtLast.trans hstLast.symm, .inr ⟨hdt, hst⟩⟩
  · obtain ⟨hdt, hdtLast⟩ := Prod.mk.inj (tickTimer_of_open s.dt hclosed)
    obtain ⟨hst, hstLast⟩ := Prod.mk.inj (tickTimer_of_open s.st (hlast ▸ hclosed))
    exact ⟨hdtLast.trans (hlast.trans hstLast.symm), .inl ⟨hdt, hst⟩⟩

/-- A timer, its counter and its timestamp, whose counter stood at `c` when an interval began at `first`: the counter
has not been lowered, or it has been lowered once, at a time within the interval. -/
def LoweredAtMostOnce (c : Byte) (first : Nat) (t : Byte × Nat) : Prop :=
  t.1 = c ∨ (t.1.toNat = c.toNat - 1 ∧ first ≤ t.2)

theorem LoweredAtMostOnce.tickTimer {c : Byte} {first tick now : Nat} {t : Byte × Nat} (hlo : first ≤ now)
    (hhi : now < first + tick) (h : LoweredAtMostOnce c first t) :
    LoweredAtMostOnce c first (tickTimer tick now t) := by
  obtain ⟨d, last⟩ := t
  by_cases hclosed : last ≤ now ∧ tick ≤ now - last
  · obtain ⟨hcount, hlast⟩ := tickTimer_counts_of_closed d hclosed
    obtain rfl | ⟨-, hfirst⟩ := h
    · exact .inr ⟨hcount, hlo.trans_eq hlast.symm⟩
    · have : first ≤ last := hfirst
      omega
  · rwa [tickTimer_of_open d hclosed]

theorem LoweredAtMostOnce.bounds {c : Byte} {first : Nat} {t : Byte × Nat} (h : LoweredAtMostOnce c first t) :
    c.toNat - 1 ≤ t.1.toNat ∧ t.1.toNat ≤ c.toNat := by
  obtain h | ⟨h, -⟩ := h
  · rw [h]
    omega
  · omega

theorem performAll_timerUpdates_loweredAtMostOnce {dt st : Byte} {first : Nat} {times : List Nat} {s t : State}
    (htimes : ∀ now ∈ times, first ≤ now ∧ now < first + s.par.tickUs)
    (h : performAll (times.map .timerUpdate) s = .next t) (hdt : LoweredAtMostOnce dt first (s.dt, s.dtLast))
    (hst : LoweredAtMostOnce st first (s.st, s.stLast)) :
    LoweredAtMostOnce dt first (t.dt, t.dtLast) ∧ LoweredAtMostOnce st first (t.st, t.stLast) := by
  induction times generalizing s with
  | nil =>
    obtain rfl := Host.Outcome.next.inj h
    exact ⟨hdt, hst⟩
  | cons now rest ih =>
    obtain ⟨⟨hlo, hhi⟩, hrest⟩ := List.forall_mem_cons.1 htimes
    exact ih (s := s.timersUpdated now) hrest h (hdt.tickTimer hlo hhi) (hst.tickTimer hlo hhi)

/-- Settles O43: a counter lowered once has its timestamp within the interval, so its window stays open. -/
theorem atMostOneDecrementPerInterval : Obligations.AtMostOneDecrementPerInterval := by
  unfold Obligations.AtMostOneDecrementPerInterval
  intro s t first times htimes h
  obtain ⟨hdt, hst⟩ := performAll_timerUpdates_loweredAtMostOnce htimes h (.inl rfl) (.inl rfl)
  exact ⟨hdt.bounds.1, hdt.bounds.2, hst.bounds.1, hst.bounds.2⟩

/-! ## Load, boot and reset (R240 to R243) -/

theorem perform_load_of_port {addr : Nat} (b : Byte) (s : State) (h : 0x200 ≤ addr ∧ addr ≤ 0xFFF) :
    perform (.load addr b) s = .next (s.memWrite addr b) :=
  ((doLoad_cases addr b s).resolve_right fun hout => hout.1 h).2.2

theorem perform_load_of_noPort {addr : Nat} (b : Byte) (s : State) (h : ¬ (0x200 ≤ addr ∧ addr ≤ 0xFFF)) :
    perform (.load addr b) s = .fault (.loadAddress addr) :=
  ((doLoad_cases addr b s).resolve_left fun hin => h ⟨hin.1, hin.2.1⟩).2

/-- Settles O47: inside the port a memory write, outside it the stop. -/
theorem loadWritesOneByteOfTheProgramArea : Obligations.LoadWritesOneByteOfTheProgramArea := by
  unfold Obligations.LoadWritesOneByteOfTheProgramArea
  intro s addr b
  refine ⟨fun hport => ⟨_, perform_load_of_port b s hport, s.memRead_memWrite_same b rfl, fun a ha hne => ?other,
    s.memWrite_pc addr b, s.memWrite_sameButMemoryAndPc addr b⟩, perform_load_of_noPort b s⟩
  case other =>
    refine s.memRead_memWrite_other b ?_
    rwa [reduceAddr_of_lt ha, reduceAddr_of_lt (by omega)]

/-- Settles O48: the image by `loadBytes_spec`, and the fetch at 0x200 reads its first two bytes. -/
theorem bootPlacesTheImage : Obligations.BootPlacesTheImage := by
  unfold Obligations.BootPlacesTheImage
  intro t0 image par
  refine ⟨fun hlen => ?_, fun hlen => if_neg (Nat.not_le.2 hlen)⟩
  obtain ⟨t, ht, himage, hother, hrest⟩ :=
    loadBytes_spec image 0x200 (State.resetAt t0 par) (Nat.le_refl _) (by omega)
  refine ⟨t, (if_pos hlen).trans ht, himage, hother, hrest, ?_⟩
  rintro b0 b1 rest rfl
  have hpc : t.pc.toNat = 0x200 := by rw [hrest]; rfl
  rw [State.fetch, hpc]
  exact congrArg₂ (· ++ ·) (himage 0 (Nat.zero_lt_succ _)) (himage 1 (by simp))

/-- Settles O49: the stack is empty and memory lists no byte. -/
theorem resetMeetsTheInvariant : Obligations.ResetMeetsTheInvariant := by
  unfold Obligations.ResetMeetsTheInvariant
  intro t0 par
  have hpc : (0x200 : Nat) ≤ 0xFFF := by decide
  exact ⟨hpc, ⟨List.length_replicate, rfl, Nat.zero_le _⟩, fun j hj => absurd hj (Nat.not_lt_zero j),
    State.wf_reset t0 par, rfl⟩

/-- Settles O56: each is a field of the reset state or of the defaults. -/
theorem parametersStandAtTheStatedDefaults : Obligations.ParametersStandAtTheStatedDefaults := by
  unfold Obligations.ParametersStandAtTheStatedDefaults
  exact ⟨rfl, rfl, rfl, rfl, rfl, rfl, fun _ _ => rfl⟩

/-! ## What an instruction may write -/

/-- The fields an instruction may write: from `s` to `t` every other field is as before (R11, R15, R16, R18, R22, R24,
R25). -/
def WritesOnly (i : Instr) (s t : State) : Prop :=
  match i with
  | .cls => t = { s with fb := t.fb, dirty := true, pc := t.pc }
  | .drw _ _ _ => t = { s with v := t.v, fb := t.fb, dirty := true, pc := t.pc }
  | .ret | .call _ => t = { s with stk := t.stk, sp := t.sp, pc := t.pc, fault := t.fault }
  | .jp _ | .jp0 _ | .se _ _ | .sne _ _ | .ser _ _ | .sner _ _ | .skp _ | .sknp _ => t = { s with pc := t.pc }
  | .ldi _ | .addix _ | .font _ => t = { s with i := t.i, pc := t.pc }
  | .bcd _ | .stm _ => t = { s with mem := t.mem, pc := t.pc }
  | .stdt _ => t = { s with dt := t.dt, pc := t.pc }
  | .stst _ => t = { s with st := t.st, pc := t.pc }
  | .rnd _ _ => t = { s with v := t.v, draws := t.draws, pc := t.pc }
  | .ld _ _ | .addi _ _ | .mov _ _ | .or _ _ | .and _ _ | .xor _ _ | .add _ _ | .sub _ _ | .shr _ _ | .subn _ _
  | .shl _ _ | .lddt _ | .wkey _ | .ldm _ => t = { s with v := t.v, pc := t.pc }

theorem skipIf_rest (s : State) (c : Bool) : s.skipIf c = { s with pc := (s.skipIf c).pc } := by
  cases c <;> rfl

/-- Every instruction completes, and writes only the fields that are its own (R200). -/
theorem exec_next_writesOnly (i : Instr) (s : State) : ∃ t, exec i s = .next t ∧ WritesOnly i s t := by
  cases i with
  | call nnn =>
    by_cases hroom : s.sp + 2 ≤ 2 * s.par.stackLevels
    · exact ⟨_, exec_call_of_room nnn hroom, rfl⟩
    · exact ⟨_, exec_call_of_noRoom nnn hroom, rfl⟩
  | ret =>
    by_cases htop : 2 ≤ s.sp
    · exact ⟨_, exec_ret_of_top htop, rfl⟩
    · exact ⟨_, exec_ret_of_noTop htop, rfl⟩
  | wkey x =>
    cases hkey : s.lowestKey with
    | none => exact ⟨_, exec_wkey_of_noKey x hkey, rfl⟩
    | some k => exact ⟨_, exec_wkey_of_key x hkey, rfl⟩
  | se | sne | ser | sner | skp | sknp => exact ⟨_, rfl, skipIf_rest s _⟩
  | stm x => exact ⟨_, rfl, by rw [WritesOnly, State.advance, State.jump, storeRegs_rest]⟩
  | _ => exact ⟨_, rfl, rfl⟩

theorem writesOnly_of_exec {i : Instr} {s t : State} (h : exec i s = .next t) : WritesOnly i s t := by
  obtain ⟨u, hu, hwrites⟩ := exec_next_writesOnly i s
  exact Host.Outcome.next.inj (hu.symm.trans h) ▸ hwrites

section OneField
variable {i : Instr} {s t : State} (h : exec i s = .next t)
include h

theorem par_of_exec : t.par = s.par := by
  have hw := writesOnly_of_exec h
  cases i <;> exact (congrArg State.par hw :)

theorem index_of_exec : t.i = s.i ∨ (∃ nnn, i = .ldi nnn) ∨ (∃ x, i = .addix x) ∨ (∃ x, i = .font x) := by
  have hw := writesOnly_of_exec h
  cases i with
  | ldi nnn => exact .inr (.inl ⟨nnn, rfl⟩)
  | addix x => exact .inr (.inr (.inl ⟨x, rfl⟩))
  | font x => exact .inr (.inr (.inr ⟨x, rfl⟩))
  | _ => exact .inl (congrArg State.i hw :)

theorem mem_of_exec : t.mem = s.mem ∨ (∃ x, i = .bcd x) ∨ (∃ x, i = .stm x) := by
  have hw := writesOnly_of_exec h
  cases i with
  | bcd x => exact .inr (.inl ⟨x, rfl⟩)
  | stm x => exact .inr (.inr ⟨x, rfl⟩)
  | _ => exact .inl (congrArg State.mem hw :)

theorem stack_of_exec : SameStack s t ∨ i = .ret ∨ ∃ nnn, i = .call nnn := by
  have hw := writesOnly_of_exec h
  cases i with
  | ret => exact .inr (.inl rfl)
  | call nnn => exact .inr (.inr ⟨nnn, rfl⟩)
  | _ => exact .inl ⟨(congrArg State.sp hw :), (congrArg State.stk hw :)⟩

theorem screen_of_exec : SameScreen s t ∨ (t.dirty = true ∧ (i = .cls ∨ ∃ x y n, i = .drw x y n)) := by
  have hw := writesOnly_of_exec h
  cases i with
  | cls => exact .inr ⟨(congrArg State.dirty hw :), .inl rfl⟩
  | drw x y n => exact .inr ⟨(congrArg State.dirty hw :), .inr ⟨x, y, n, rfl⟩⟩
  | _ => exact .inl ⟨(congrArg State.fb hw :), (congrArg State.dirty hw :)⟩

theorem dt_of_exec : t.dt = s.dt ∨ ∃ x, i = .stdt x := by
  have hw := writesOnly_of_exec h
  cases i with
  | stdt x => exact .inr ⟨x, rfl⟩
  | _ => exact .inl (congrArg State.dt hw :)

theorem st_of_exec : t.st = s.st ∨ ∃ x, i = .stst x := by
  have hw := writesOnly_of_exec h
  cases i with
  | stst x => exact .inr ⟨x, rfl⟩
  | _ => exact .inl (congrArg State.st hw :)

/-- The timestamps, `KEYS` and the agenda are written by no instruction (R23, R26; log 2). -/
theorem hostFields_of_exec :
    t.dtLast = s.dtLast ∧ t.stLast = s.stLast ∧ t.keys = s.keys ∧ t.agenda = s.agenda := by
  have hw := writesOnly_of_exec h
  cases i <;>
    exact ⟨(congrArg State.dtLast hw :), (congrArg State.stLast hw :), (congrArg State.keys hw :),
      (congrArg State.agenda hw :)⟩

end OneField

/-- Settles O54: each field an instruction changes names its writers among the fields the instruction may write. -/
theorem eachRegisterHasItsOwnWriters : Obligations.EachRegisterHasItsOwnWriters := by
  unfold Obligations.EachRegisterHasItsOwnWriters
  intro i s t h
  obtain ⟨hdtLast, hstLast, hkeys, hagenda⟩ := hostFields_of_exec h
  exact ⟨(index_of_exec h).resolve_left,
    fun hfb => ((screen_of_exec h).resolve_left fun hsame => hfb hsame.1).2,
    fun hdirty => (screen_of_exec h).resolve_left fun hsame => hdirty hsame.2,
    (dt_of_exec h).resolve_left, (st_of_exec h).resolve_left, hdtLast, hstLast, hkeys, hagenda,
    fun hstack => (stack_of_exec h).resolve_left fun ⟨hsp, hstk⟩ => hstack.elim (· hsp) (· hstk)⟩

/-- Settles O53: an instruction that is no store leaves the memory as it is, and the two stores have their frames. -/
theorem onlyStoresChangeMemory : Obligations.OnlyStoresChangeMemory := by
  unfold Obligations.OnlyStoresChangeMemory
  intro i s t a h ha hchanged
  obtain hmem | ⟨x, rfl⟩ | ⟨x, rfl⟩ := mem_of_exec h
  · exact absurd (State.memRead_congr hmem (par_of_exec h) a) hchanged
  · obtain rfl := Host.Outcome.next.inj ((exec_bcd x s).symm.trans h)
    obtain ⟨k, hk, haddr⟩ := not_not.1 (mt ((storeDigits_sameMemoryExcept s s.v[x]).advance a ha) hchanged)
    exact .inl ⟨x, k, rfl, hk, haddr⟩
  · obtain rfl := Host.Outcome.next.inj h
    obtain ⟨k, hk, haddr⟩ := not_not.1 (mt ((storeRegs_sameMemoryExcept s x.val).advance a ha) hchanged)
    exact .inr ⟨x, k, rfl, hk, haddr⟩

/-! ## The V registers -/

/-- The V registers an instruction keeps, and what a flag writer leaves in VF (R11, R122). -/
theorem exec_registers (i : Instr) (s : State) : ∃ t, exec i s = .next t ∧
    SameRegsExcept (fun j => IsDestination j i ∨ (j = 15 ∧ IsFlagWriter i)) s t ∧
    (IsFlagWriter i → ∃ c, t.v[15] = flagByte c) := by
  cases i with
  | ld x | addi x | mov x | or x | and x | xor x | rnd x | lddt x =>
    exact ⟨_, rfl, fun j hj => setV_get_other _ _ fun e => hj (.inl e), False.elim⟩
  | add x | sub x | shr x | subn x | shl x =>
    exact ⟨_, rfl, fun j hj => setVFlag_get_other _ _ _ (fun e => hj (.inl e)) (fun e => hj (.inr ⟨e, trivial⟩)),
      fun _ => ⟨_, setVFlag_get_vf _ _ _ _⟩⟩
  | drw x y n =>
    exact ⟨_, exec_drw x y n s, fun j hj => withCanvas_sameRegsExcept s _ j fun e => hj (.inr ⟨e, trivial⟩),
      fun _ => ⟨_, withCanvas_get_vf s _⟩⟩
  | ldm x => exact ⟨_, rfl, fun j hj => loadRegs_get_of_le s (Nat.lt_of_not_le fun e => hj (.inl e)), False.elim⟩
  | wkey x =>
    cases hkey : s.lowestKey with
    | none => exact ⟨_, exec_wkey_of_noKey x hkey, fun _ _ => rfl, False.elim⟩
    | some k =>
      exact ⟨_, exec_wkey_of_key x hkey, fun j hj => setV_get_other _ _ fun e => hj (.inl e), False.elim⟩
  | _ =>
    obtain ⟨t, ht, hw⟩ := exec_next_writesOnly _ s
    exact ⟨t, ht, fun j _ => (congrArg (fun u : State => u.v[j]) hw :), False.elim⟩

/-- Settles O52: the registers outside the destination and the flag are kept, and the flag is a condition as VF holds
it. -/
theorem onlyDestinationsAndFlagChange : Obligations.OnlyDestinationsAndFlagChange := by
  unfold Obligations.OnlyDestinationsAndFlagChange
  intro i s t h
  obtain ⟨u, hu, hregs, hflag⟩ := exec_registers i s
  obtain rfl := Host.Outcome.next.inj (hu.symm.trans h)
  refine ⟨fun j hj => not_not.1 (mt (hregs j) hj), fun hi => ?_⟩
  obtain ⟨c, hc⟩ := hflag hi
  rw [hc]
  cases c with
  | false => exact .inl rfl
  | true => exact .inr rfl

/-! ## What a step can answer -/

theorem exec_next (i : Instr) (s : State) : ∃ t, exec i s = .next t :=
  (exec_next_writesOnly i s).imp fun _ => And.left

theorem cpuStep_next (s : State) : ∃ t, cpuStep s = .next t := by
  obtain h | ⟨i, h⟩ | h := cpuStep_cases s
  · exact ⟨s, h⟩
  · exact h ▸ exec_next i s
  · exact ⟨s.advance, h⟩

/-- Settles O10: an instruction completes by its frame, and a `Step` is one of the three cases of `cpuStep_cases`. -/
theorem everyInstructionAnswersANextState : Obligations.EveryInstructionAnswersANextState := by
  unfold Obligations.EveryInstructionAnswersANextState
  exact fun s => ⟨fun i => exec_next i s, cpuStep_next s⟩

theorem perform_next_or_badLoad (o : Operation) (s : State) : (∃ t, perform o s = .next t) ∨
    ∃ addr b, o = .load addr b ∧ ¬ (0x200 ≤ addr ∧ addr ≤ 0xFFF) := by
  cases o with
  | load addr b =>
    by_cases hport : 0x200 ≤ addr ∧ addr ≤ 0xFFF
    · exact .inl ⟨_, perform_load_of_port b s hport⟩
    · exact .inr ⟨addr, b, rfl, hport⟩
  | step => exact .inl (cpuStep_next s)
  | reset | timerUpdate | setKeys | ackDirty => exact .inl ⟨_, rfl⟩

theorem step_of_agenda_cons {s : State} {o : Operation} {rest : List Operation} (h : s.agenda = o :: rest) :
    step s = perform o { s with agenda := rest } := by
  rw [step, h]

theorem step_of_badLoad {s : State} {addr : Nat} {b : Byte} {rest : List Operation}
    (hagenda : s.agenda = .load addr b :: rest) (hport : ¬ (0x200 ≤ addr ∧ addr ≤ 0xFFF)) :
    step s = .fault (.loadAddress addr) :=
  (step_of_agenda_cons hagenda).trans (perform_load_of_noPort b _ hport)

/-- A step answers a next state, or stops at a `Load` the port has no address for (log 12). -/
theorem step_cases (s : State) : (∃ t, step s = .next t) ∨
    ∃ addr b rest, s.agenda = .load addr b :: rest ∧ ¬ (0x200 ≤ addr ∧ addr ≤ 0xFFF) ∧
      step s = .fault (.loadAddress addr) := by
  cases hagenda : s.agenda with
  | nil => exact .inl (step_of_agenda_nil hagenda ▸ cpuStep_next s)
  | cons o rest =>
    obtain hnext | ⟨addr, b, rfl, hport⟩ := perform_next_or_badLoad o { s with agenda := rest }
    · exact .inl (step_of_agenda_cons hagenda ▸ hnext)
    · exact .inr ⟨addr, b, rest, rfl, hport, step_of_badLoad hagenda hport⟩

/-- Settles O11: every operation but a `Load` outside the port answers a next state. -/
theorem onlyABadLoadStopsAStep : Obligations.OnlyABadLoadStopsAStep := by
  unfold Obligations.OnlyABadLoadStopsAStep
  intro s
  constructor
  · refine fun f => ⟨fun hfault => ?_, ?_⟩
    · obtain ⟨t, hnext⟩ | ⟨addr, b, rest, hagenda, hport, hstop⟩ := step_cases s
      · exact nomatch hnext.symm.trans hfault
      · exact ⟨addr, b, rest, hagenda, hport, Host.Outcome.fault.inj (hfault.symm.trans hstop)⟩
    · rintro ⟨addr, b, rest, hagenda, hport, rfl⟩
      exact step_of_badLoad hagenda hport
  · intro r hrefused
    obtain ⟨t, hnext⟩ | ⟨addr, b, rest, -, -, hstop⟩ := step_cases s
    · exact nomatch hnext.symm.trans hrefused
    · exact nomatch hstop.symm.trans hrefused

/-! ## The agenda (R6; log 2) -/

theorem run_succ_of_next (M : Host.Core) {k : Nat} {s t : M.State} (h : M.step s = .next t) :
    M.run (k + 1) s = M.run k t := by
  rw [Host.Core.run, h]

theorem run_succ_of_fault (M : Host.Core) {k : Nat} {s : M.State} {f : M.Fault} (h : M.step s = .fault f) :
    M.run (k + 1) s = .fault f := by
  rw [Host.Core.run, h]

theorem run_succ_of_refused (M : Host.Core) {k : Nat} {s : M.State} {r : M.Refusal} (h : M.step s = .refused r) :
    M.run (k + 1) s = .refused r := by
  rw [Host.Core.run, h]

theorem core_run_agenda (s : State) (ops : List Operation) :
    Sys2Proof.core.run ops.length { s with agenda := ops } = performAll ops { s with agenda := [] } := by
  induction ops generalizing s with
  | nil => rfl
  | cons o rest ih =>
    have hstep (r : Result) (hr : perform o s = r) :
        step { s with agenda := o :: rest } = Result.withAgenda rest r :=
      hr ▸ perform_withAgenda o s rest
    rw [performAll, perform_withAgenda]
    cases hperform : perform o s with
    | next t => exact Eq.trans (run_succ_of_next Sys2Proof.core (hstep _ hperform)) (ih t)
    | fault f => exact run_succ_of_fault Sys2Proof.core (hstep _ hperform)
    | refused r => exact run_succ_of_refused Sys2Proof.core (hstep _ hperform)

/-- Settles O51: by induction on the operations, since an operation does the same whatever the agenda. -/
theorem agendaIsTheSequenceOfOperations : Obligations.AgendaIsTheSequenceOfOperations := by
  unfold Obligations.AgendaIsTheSequenceOfOperations
  exact core_run_agenda

/-! ## What every step keeps -/

/-- A step of the model is one operation, on the state with what is left of the agenda. -/
theorem exists_perform_of_step {s t : State} (h : step s = .next t) :
    ∃ o rest, perform o { s with agenda := rest } = .next t := by
  cases hagenda : s.agenda with
  | nil =>
    have hself : { s with agenda := [] } = s := by rw [← hagenda]
    exact ⟨.step, [], (congrArg cpuStep hself).trans ((step_of_agenda_nil hagenda).symm.trans h)⟩
  | cons o rest => exact ⟨o, rest, (step_of_agenda_cons hagenda).symm.trans h⟩

/-- What the current state, the advanced one and the next state of every instruction have, a `Step` leaves. -/
theorem cpuStep_keeps {P : State → Prop} {s t : State} (hself : P s) (hadvance : P s.advance)
    (hexec : ∀ i, exec i s = .next t → P t) (h : cpuStep s = .next t) : P t := by
  obtain hcpu | ⟨i, hcpu⟩ | hcpu := cpuStep_cases s
  · exact Host.Outcome.next.inj (hcpu.symm.trans h) ▸ hself
  · exact hexec i (hcpu.symm.trans h)
  · exact Host.Outcome.next.inj (hcpu.symm.trans h) ▸ hadvance

theorem perform_load_next {addr : Nat} {b : Byte} {s t : State} (h : perform (.load addr b) s = .next t) :
    t = s.memWrite addr b := by
  obtain ⟨-, -, hwrite⟩ | ⟨-, hstop⟩ := doLoad_cases addr b s
  · exact (Host.Outcome.next.inj (hwrite.symm.trans h)).symm
  · exact nomatch hstop.symm.trans h

theorem cpuStep_par {s t : State} (h : cpuStep s = .next t) : t.par = s.par :=
  cpuStep_keeps (P := fun t => t.par = s.par) rfl rfl (fun _ => par_of_exec) h

theorem perform_par {o : Operation} {s t : State} (h : perform o s = .next t) : t.par = s.par := by
  cases o with
  | step => exact cpuStep_par h
  | load addr b => rw [perform_load_next h, State.memWrite_par]
  | reset | timerUpdate | setKeys | ackDirty =>
    obtain rfl := Host.Outcome.next.inj h
    rfl

/-- Settles O57: a step is one operation, and none of them writes the parameters. -/
theorem everyStepKeepsTheParameters : Obligations.EveryStepKeepsTheParameters := by
  unfold Obligations.EveryStepKeepsTheParameters
  intro s t h
  obtain ⟨o, rest, hperform⟩ := exists_perform_of_step h
  exact perform_par (s := { s with agenda := rest }) hperform

/-! ## The invariant -/

theorem pcByTable_le (i : Instr) {s : State} (h : s.PcInRange) : pcByTable s i ≤ 0xFFF := by
  cases i with
  | jp nnn => exact Nat.le_of_lt_succ nnn.isLt
  | call nnn =>
    rw [pcByTable]
    split
    · exact h
    · exact Nat.le_of_lt_succ nnn.isLt
  | ret | wkey =>
    rw [pcByTable]
    split
    · exact h
    · exact pcAfter_le s _
  | _ => exact pcAfter_le s _

theorem exec_pcInRange {i : Instr} {s t : State} (hpc : s.PcInRange) (hstack : s.StackLegal)
    (h : exec i s = .next t) : t.PcInRange := by
  obtain ⟨u, hu, hupc⟩ := exec_pc i hstack
  obtain rfl := Host.Outcome.next.inj (hu.symm.trans h)
  exact hupc.trans_le (pcByTable_le i hpc)

theorem push16_stackLegal {s : State} (a : Word) (hroom : s.sp + 2 ≤ 2 * s.par.stackLevels) (h : s.StackLegal) :
    (s.push16 a).StackLegal := by
  obtain ⟨hlen, heven, -⟩ := h
  exact ⟨(push16_stk_length s a).trans hlen, by rw [State.push16_sp]; omega, hroom⟩

theorem push16_returnsInRange {s : State} {a : Word} (ha : a.toNat ≤ 0xFFF)
    (hroom : s.sp + 2 ≤ s.stk.length) (heven : s.sp % 2 = 0) (h : s.ReturnsInRange) :
    (s.push16 a).ReturnsInRange := by
  intro j hj hjeven
  rw [State.push16_sp] at hj
  rw [push16_get s a hroom]
  by_cases htop : j = s.sp
  · rw [if_pos htop, Option.getD_some, highByte_toNat]
    omega
  · rw [if_neg htop, if_neg (by omega)]
    exact h j (by omega) hjeven

theorem dropTop16_stackLegal {s : State} (htop : 2 ≤ s.sp) (h : s.StackLegal) : s.dropTop16.StackLegal := by
  obtain ⟨hlen, heven, hle⟩ := h
  exact ⟨hlen, by rw [State.dropTop16_sp]; omega, (Nat.sub_le _ _).trans hle⟩

theorem dropTop16_returnsInRange {s : State} (h : s.ReturnsInRange) : s.dropTop16.ReturnsInRange :=
  fun j hj => h j (hj.trans_le (Nat.sub_le _ _))

theorem exec_stackInRange {i : Instr} {s t : State} (hpc : s.PcInRange) (hstack : s.StackLegal)
    (hret : s.ReturnsInRange) (h : exec i s = .next t) : t.StackLegal ∧ t.ReturnsInRange := by
  obtain ⟨hsp, hstk⟩ | rfl | ⟨nnn, rfl⟩ := stack_of_exec h
  · rw [State.StackLegal, State.ReturnsInRange, hsp, hstk, par_of_exec h]
    exact ⟨hstack, hret⟩
  · by_cases htop : 2 ≤ s.sp
    · obtain rfl := Host.Outcome.next.inj ((exec_ret_of_top htop).symm.trans h)
      exact ⟨dropTop16_stackLegal htop hstack, dropTop16_returnsInRange hret⟩
    · obtain rfl := Host.Outcome.next.inj ((exec_ret_of_noTop htop).symm.trans h)
      exact ⟨hstack, hret⟩
  · by_cases hroom : s.sp + 2 ≤ 2 * s.par.stackLevels
    · obtain rfl := Host.Outcome.next.inj ((exec_call_of_room nnn hroom).symm.trans h)
      have ⟨hlen, heven, _⟩ := hstack
      exact ⟨push16_stackLegal s.pc hroom hstack, push16_returnsInRange hpc (hlen ▸ hroom) heven hret⟩
    · obtain rfl := Host.Outcome.next.inj ((exec_call_of_noRoom nnn hroom).symm.trans h)
      exact ⟨hstack, hret⟩

theorem storeDigits_memCanonical {s : State} (b : Byte) (h : s.mem.wf s.par = true) :
    (storeDigits s b).mem.wf s.par = true :=
  State.wf_memWrite (s := (s.memWrite (s.indexed 0) _).memWrite (s.indexed 1) _) _ _
    (State.wf_memWrite (s := s.memWrite (s.indexed 0) _) _ _ (State.wf_memWrite _ _ h))

theorem exec_memCanonical {i : Instr} {s t : State} (hmem : s.mem.wf s.par = true) (h : exec i s = .next t) :
    t.mem.wf t.par = true := by
  rw [par_of_exec h]
  obtain hsame | ⟨x, rfl⟩ | ⟨x, rfl⟩ := mem_of_exec h
  · rwa [hsame]
  · obtain rfl := Host.Outcome.next.inj ((exec_bcd x s).symm.trans h)
    exact storeDigits_memCanonical _ hmem
  · obtain rfl := Host.Outcome.next.inj h
    exact wf_storeRegs s _ hmem

theorem exec_keeps_inv {i : Instr} {s t : State} (hinv : s.Inv) (h : exec i s = .next t) : t.Inv := by
  obtain ⟨hpc, hstack, hret, hmem, hlast⟩ := hinv
  obtain ⟨hstack', hret'⟩ := exec_stackInRange hpc hstack hret h
  obtain ⟨hdtLast, hstLast, -⟩ := hostFields_of_exec h
  exact ⟨exec_pcInRange hpc hstack h, hstack', hret', exec_memCanonical hmem h,
    hdtLast.trans (hlast.trans hstLast.symm)⟩

theorem advance_keeps_inv {s : State} (hinv : s.Inv) : s.advance.Inv := by
  obtain ⟨-, hrest⟩ := hinv
  exact ⟨(advance_pc_toNat rfl rfl).trans_le (pcAfter_le s _), hrest⟩

theorem memWrite_keeps_inv {s : State} (a : Nat) (b : Byte) (hinv : s.Inv) : (s.memWrite a b).Inv := by
  obtain ⟨hpc, hstack, hret, hmem, hlast⟩ := hinv
  exact ⟨hpc, hstack, hret, State.wf_memWrite a b hmem, hlast⟩

theorem tickTimer_timestamp (tick now : Nat) (t : Byte × Nat) :
    (tickTimer tick now t).2 = if windowClosed tick now t.2 then now else t.2 := by
  unfold tickTimer
  split <;> rfl

theorem timersUpdated_keeps_inv {s : State} (now : Nat) (hinv : s.Inv) : (s.timersUpdated now).Inv := by
  obtain ⟨hpc, hstack, hret, hmem, hlast⟩ := hinv
  refine ⟨hpc, hstack, hret, hmem, ?_⟩
  rw [State.timersUpdated, tickTimer_timestamp, tickTimer_timestamp, hlast]

theorem cpuStep_keeps_inv {s t : State} (hinv : s.Inv) (h : cpuStep s = .next t) : t.Inv :=
  cpuStep_keeps hinv (advance_keeps_inv hinv) (fun _ => exec_keeps_inv hinv) h

theorem perform_keeps_inv {o : Operation} {s t : State} (hinv : s.Inv) (h : perform o s = .next t) : t.Inv := by
  cases o with
  | step => exact cpuStep_keeps_inv hinv h
  | load addr b => exact perform_load_next h ▸ memWrite_keeps_inv addr b hinv
  | timerUpdate now => exact Host.Outcome.next.inj h ▸ timersUpdated_keeps_inv now hinv
  | reset t0 => exact Host.Outcome.next.inj h ▸ resetMeetsTheInvariant t0 s.par
  | setKeys | ackDirty => exact Host.Outcome.next.inj h ▸ hinv

/-- Settles O50: a step is one operation, and each of them keeps the invariant. -/
theorem stepKeepsTheInvariant : Obligations.StepKeepsTheInvariant := by
  unfold Obligations.StepKeepsTheInvariant
  intro s t hinv h
  obtain ⟨o, rest, hperform⟩ := exists_perform_of_step h
  exact perform_keeps_inv (s := { s with agenda := rest }) hinv hperform

/-! ## What no instruction reads -/

/-- The state with other values in the four fields no instruction reads. -/
def State.withUnread (s : State) (st : Byte) (dtLast stLast : Nat) (dirty : Bool) : State :=
  { s with st := st, dtLast := dtLast, stLast := stLast, dirty := dirty }

section Unread
variable (s : State) (st : Byte) (dtLast stLast : Nat) (dirty : Bool)

theorem skipIf_withUnread (c : Bool) : (s.withUnread st dtLast stLast dirty).skipIf c =
    (s.skipIf c).withUnread st dtLast stLast dirty := by
  cases c <;> rfl

theorem storeRegs_withUnread (k : Nat) : storeRegs (s.withUnread st dtLast stLast dirty) k =
    (storeRegs s k).withUnread st dtLast stLast dirty := by
  induction k with
  | zero => rfl
  | succ k ih => rw [storeRegs, ih]; rfl

theorem loadRegs_withUnread (k : Nat) : loadRegs (s.withUnread st dtLast stLast dirty) k = loadRegs s k := by
  induction k with
  | zero => rfl
  | succ k ih => rw [loadRegs, ih]; rfl

theorem drawRows_withUnread (x0 y0 n : Nat) :
    drawRows (s.withUnread st dtLast stLast dirty) x0 y0 n = drawRows s x0 y0 n := by
  induction n with
  | zero => rfl
  | succ n ih => rw [drawRows, ih]; rfl

theorem exec_withUnread (i : Instr) : ∃ t t', exec i s = .next t ∧
    exec i (s.withUnread st dtLast stLast dirty) = .next t' ∧ AgreeButUnread t t' := by
  cases i with
  | call nnn =>
    by_cases hroom : s.sp + 2 ≤ 2 * s.par.stackLevels
    · exact ⟨_, _, exec_call_of_room nnn hroom, exec_call_of_room nnn hroom, rfl⟩
    · exact ⟨_, _, exec_call_of_noRoom nnn hroom, exec_call_of_noRoom nnn hroom, rfl⟩
  | ret =>
    by_cases htop : 2 ≤ s.sp
    · exact ⟨_, _, exec_ret_of_top htop, exec_ret_of_top htop, rfl⟩
    · exact ⟨_, _, exec_ret_of_noTop htop, exec_ret_of_noTop htop, rfl⟩
  | wkey x =>
    cases hkey : s.lowestKey with
    | none => exact ⟨_, _, exec_wkey_of_noKey x hkey, exec_wkey_of_noKey x hkey, rfl⟩
    | some k => exact ⟨_, _, exec_wkey_of_key x hkey, exec_wkey_of_key x hkey, rfl⟩
  | se | sne | ser | sner | skp | sknp =>
    exact ⟨_, _, rfl, congrArg Host.Outcome.next (skipIf_withUnread ..), rfl⟩
  | stm x =>
    refine ⟨_, _, rfl, rfl, ?_⟩
    rw [storeRegs_withUnread]
    rfl
  | ldm x =>
    refine ⟨_, _, rfl, rfl, ?_⟩
    rw [loadRegs_withUnread]
    rfl
  | drw x y n =>
    refine ⟨_, _, exec_drw x y n s, exec_drw x y n _, ?_⟩
    rw [drawRows_withUnread]
    rfl
  | _ => exact ⟨_, _, rfl, rfl, rfl⟩

theorem cpuStep_withUnread : ∃ t t', cpuStep s = .next t ∧
    cpuStep (s.withUnread st dtLast stLast dirty) = .next t' ∧ AgreeButUnread t t' := by
  by_cases hfault : s.fault = .none
  · cases hdec : decodeWord s.fetch with
    | instr i =>
      rw [cpuStep_of_instr hfault hdec, cpuStep_of_instr (s := s.withUnread st dtLast stLast dirty) hfault hdec]
      exact exec_withUnread s st dtLast stLast dirty i
    | unrecognized op =>
      exact ⟨_, _, cpuStep_of_unrecognized hfault hdec, cpuStep_of_unrecognized hfault hdec, rfl⟩
  · exact ⟨_, _, cpuStep_of_fault hfault, cpuStep_of_fault hfault, rfl⟩

theorem report_withUnread : (s.withUnread st dtLast stLast dirty).report = s.report := rfl

end Unread

/-- Settles O55: an instruction does the same, but for the four fields, whatever they hold. -/
theorem soundTimerTimestampsAndDirtyDoNotInfluenceAStep :
    Obligations.SoundTimerTimestampsAndDirtyDoNotInfluenceAStep := by
  unfold Obligations.SoundTimerTimestampsAndDirtyDoNotInfluenceAStep
  intro s s' t t' hagree h h'
  have hs' : s.withUnread s'.st s'.dtLast s'.stLast s'.dirty = s' := hagree.symm
  obtain ⟨u, u', hu, hu', hagree'⟩ := cpuStep_withUnread s s'.st s'.dtLast s'.stLast s'.dirty
  obtain rfl := Host.Outcome.next.inj (hu.symm.trans h)
  obtain rfl := Host.Outcome.next.inj (hu'.symm.trans (hs' ▸ h'))
  exact ⟨hagree', hs' ▸ report_withUnread ..⟩

end Sys2Proof.Machine
end
